-- ==== Sys2Proof/Word.lean ====
section
/-! DEFINITION. The word types of the CORE: every data word is exactly 32 bits (00_scope.md R8 `W`,
R190), every key lane 8 bits (R53). The operators of R11 are those of `BitVec`: `+` is addition
modulo 2^32, `^^^`, `|||`, `&&&`, `~~~` the bitwise ones, `<<<` and `>>>` the 32-bit shifts. -/

namespace Sys2Proof

/-- A 32-bit data word; bit 0 is the least significant (R10). -/
abbrev Word := BitVec 32

/-- One byte: a lane of the KEY port, or an S-box index (R52, R53). -/
abbrev Byte := BitVec 8

end Sys2Proof
end

