-- ==== Sys2Proof/Syntax.lean ====
section
/-! DEFINITION. The instructions of the CORE: the two commands of spec/opcode_table.json
(30_encoding.md R73). The fields are the unsigned integers of R74; WellFormed.lean bounds them. -/

namespace Sys2Proof

/-- A decoded command (30_encoding.md R76). The operand ports are not part of the word (R71); they
stand in the state as sampled for the command. -/
inductive Instr where
  /-- `LOAD_KEY`, format L: the fields `KLEN`, `MODE`, `KEY_BITS` as integers (R72, R74, R132). -/
  | loadKey (klen mode keyBits : Nat)
  /-- `KEYSTREAM`, format K: no operands (R72, R140, R145). -/
  | keystream
deriving DecidableEq, Repr

end Sys2Proof
end

