-- ==== Sys2Proof/WellFormed.lean ====
section
/-! DEFINITION. Which terms of `Instr` have a command word: each field fits the width that
30_encoding.md R72 gives it. Legality of the values (128 or 256, 64 or 32) is NOT asked here: "field
values that are representable but not legal ... are not illegal encodings" (R77). -/

namespace Sys2Proof

/-- Every field fits its bits: `KLEN` 6, `MODE` 7, `KEY_BITS` 9 (30_encoding.md R72). -/
def Instr.wf : Instr → Bool
  | .loadKey klen mode keyBits => decide (klen < 64) && decide (mode < 128) && decide (keyBits < 512)
  | .keystream => true

end Sys2Proof
end

