-- ==== Sys2Proof/Decode.lean ====
section
/-! DEFINITION. Decoding a command word, total on all 2^32 words (30_encoding.md R76), and the encoder
from the same format tables (R72). -/

namespace Sys2Proof

/-- Why a word is illegal (30_encoding.md R77). The CORE reports both as `IllegalCommand`. -/
inductive Illegal where
  /-- `OP` is neither 0x1 nor 0x2. -/
  | reservedOp
  /-- A bit of the field `ZERO` is 1. -/
  | zeroBitSet
deriving DecidableEq, Repr

/-- `OP`, bits [31:28] of every command word (30_encoding.md R72). -/
def opField (cmd : Word) : BitVec 4 := cmd.extractLsb 31 28

/-- The decoding procedure of 30_encoding.md R76: the checks in its order, the first that fails
decides. Each field is taken from its bits as they stand (R74). -/
def decode (cmd : Word) : Except Illegal Instr :=
  if opField cmd = 0x1#4 then
    if cmd.extractLsb 27 22 ≠ 0#6 then .error .zeroBitSet
    else .ok (.loadKey (cmd.extractLsb 21 16).toNat (cmd.extractLsb 15 9).toNat
      (cmd.extractLsb 8 0).toNat)
  else if opField cmd = 0x2#4 then
    if cmd.extractLsb 27 0 ≠ 0#28 then .error .zeroBitSet else .ok .keystream
  else .error .reservedOp

/-- The command word of an instruction: the bit tables of 30_encoding.md R72 read from bit 31 down.
A field too wide for its bits (an ill-formed term) loses its high bits. -/
def encode : Instr → Word
  | .loadKey klen mode keyBits =>
    0x1#4 ++ 0#6 ++ BitVec.ofNat 6 klen ++ BitVec.ofNat 7 mode ++ BitVec.ofNat 9 keyBits
  | .keystream => 0x2#4 ++ 0#28

/-- The command word whose low `nbits` bits are those of `w` and whose other bits are 0. A command is
one 32-bit word on a port (30_encoding.md R70, R79), so no byte order enters. -/
def tableWord (nbits w : Nat) : Word := BitVec.ofNat 32 (w % 2 ^ nbits)

/-- The instruction the decoder reads from the opcode-table word `w` of `nbits` bits. -/
def decodeTableWord (nbits w : Nat) : Option Instr :=
  match decode (tableWord nbits w) with
  | .ok i => some i
  | .error _ => none

end Sys2Proof
end

