-- ==== Sys2Proof/Machine/Params.lean ====
section
/-! DEFINITION. The fixed parameters of 00_scope.md R8: "a constant of the hardware, not an argument of
the model". -/

namespace Sys2Proof.Machine

/-- Offsets from `ptr` of the three feedback taps (R8, R94). -/
abbrev TAP_A : Fin 17 := 7
@[inherit_doc TAP_A] abbrev TAP_B : Fin 17 := 13
@[inherit_doc TAP_A] abbrev TAP_C : Fin 17 := 16

/-- Offset from `ptr` of the word the FSM reads (R8, R101). -/
abbrev TAP_FSM : Fin 17 := 1

/-- Offset from `ptr` of the word the keystream reads (R8, R141). -/
abbrev TAP_OUT : Fin 17 := 16

/-- Low 32 bits of the field polynomial f(x) (R8, 40_lfsr_gf232.md R90). -/
abbrev FPOLY : Word := 0x20108403#32

/-- The left-rotation amount of the FSM (R8, 41_fsm.md R103). -/
abbrev ROT : Nat := 7

/-- The mode tags, each also the number of initial clocks (R8, 30_encoding.md R74). -/
abbrev STANDARD_MODE : Nat := 64
@[inherit_doc STANDARD_MODE] abbrev IV_MODE : Nat := 32

/-- The value of `ptr` set by key loading (R8, 43_load_key.md R128). -/
abbrev PTR_INIT : BitVec 4 := 15

end Sys2Proof.Machine
end

