-- ==== Sys2Proof/Machine/Field.lean ====
section
/-! DEFINITION. Word functions of the data path: rotation (00_scope.md R11, 41_fsm.md R103) and
multiplication by α in GF(2^32) (40_lfsr_gf232.md R91). Addition in the field is `^^^` (R90). -/

namespace Sys2Proof.Machine

/-- Left rotation within 32 bits, for amounts 0 to 31 (R11); the machine rotates by `ROT` only. -/
def rotl32 (a : Word) (n : Nat) : Word :=
  if n = 0 then a else (a <<< n) ||| (a >>> (32 - n))

/-- Right rotation: `rotl32(a, (32 - n) mod 32)` (R11). Not computed by the hardware. -/
def rotr32 (a : Word) (n : Nat) : Word := rotl32 a ((32 - n) % 32)

/-- Multiplication by α (R91): the test of bit 31 is made on the argument before the shift. -/
def alpha (w : Word) : Word :=
  if w.getLsbD 31 = false then w <<< 1 else (w <<< 1) ^^^ FPOLY

/-- The inverse of `alpha` (R92 c). Never computed by the hardware; for statements only. -/
def alphaInv (v : Word) : Word :=
  if v.getLsbD 0 = true then ((v ^^^ FPOLY) >>> 1) ||| 0x80000000#32 else v >>> 1

end Sys2Proof.Machine
end

