-- ==== Sys2Proof/Config.lean ====
section
/-! DEFINITION. What the spec leaves to an implementation or leaves without a value: the S-box tables
(the open parameter SBOX of 00_scope.md R9) and the free values. Each constant here is opaque with no
body, so no proof can learn its value. The fixed parameters of R8 are in Machine/Params.lean. -/

namespace Sys2Proof

/-- The four S-box tables as plain data, `t[j][b]` being `SBOX[j][b]` (20_memory.md R52). -/
abbrev SBox := Vector (Vector Word 256) 4

/-- The tables of the machine that `State.reset` describes. DESIGN CHOICE (log entry 5): the spec gives
no table, and every rule holds for every value (R9), so this is an uninterpreted constant. -/
opaque Config.sbox : SBox

/-- The free value of cipher word number `i` the `n`-th time the cipher elements become unspecified
(10_state.md R33, 60_exceptions.md R156). Words 0 to 31 are `L[0..31]`, 32 `R1`, 33 `R2`, 34
`next_r1`, 35 `next_r2`, 36 `fsm_out`. DESIGN CHOICE (log entries 1, 2, 3, 4): uninterpreted. -/
opaque Config.freeWord (n i : Nat) : Word

/-- The free value of `ptr` the `n`-th time it becomes unspecified (log entries 1, 2, 3, 4). -/
opaque Config.freePtr (n : Nat) : BitVec 4

/-- What lane `i` of the KEY port carries when the host drives no key byte on it: "lanes at index
`KLEN` and above hold no value" (20_memory.md R53). Uninterpreted (log entry 8). -/
opaque Config.undrivenByte (i : Nat) : Byte

/-- What the port `IV1` or `IV2` carries when the host does not drive it (93 U16). Uninterpreted (log
entry 8). -/
opaque Config.undrivenWord (i : Nat) : Word

end Sys2Proof
end

