-- ==== Sys2Proof/Machine/State.lean ====
section
/-! DEFINITION. The state of one instance of the CORE as plain data: the eight elements of 10_state.md
R20, and beside them the model's own fields for what the spec has as parameter (SBOX), input (the
host's acts and the operand ports) and output (the responses). INVENTORY.md lists each with its rule. -/

namespace Sys2Proof.Machine

/-- The five error kinds of 60_exceptions.md R150 (codes 6 and 7 are never produced, 93 U15). -/
inductive ErrorKind where
  | invalidKeySize
  | invalidMode
  | keyTooShort
  | notKeyed
  | illegalCommand
deriving DecidableEq, Repr

/-- The response of one command: `Resp = Done | Word(w) | Error(code)` (30_encoding.md R78). -/
inductive Response where
  | done
  | word (rk : Word)
  | error (e : ErrorKind)
deriving DecidableEq, Repr

/-- The operand ports of 30_encoding.md R71: 32 key lanes and the two IV words. -/
structure Ports where
  key : Vector Byte 32
  iv2 : Word
  iv1 : Word
deriving DecidableEq, Repr

/-- The input side of one command transaction (30_encoding.md R70): the word `CMD` and what the host
drives on the operand ports, sampled once. -/
structure Command where
  cmd : Word
  ports : Ports
deriving DecidableEq, Repr

/-- What the host can do to the CORE: issue a command (30_encoding.md R70) or assert reset, "an event
from outside the command set" (70_reset_and_hazards.md R180). -/
inductive HostEvent where
  | command (c : Command)
  | reset
deriving DecidableEq, Repr

/-- Why the machine stops with a fault. There is no constructor: no rule of the spec stops the CORE.
Its errors are responses after which it is ready again (60_exceptions.md R153); log entry 11. -/
inductive Fault
deriving DecidableEq, Repr

/-- Why the model refuses an instruction. -/
inductive Refusal where
  /-- Raised by a rejected arm of `exec` for an instruction without a meaning yet. Safe. No arm uses
  it in this model (log entry 11). -/
  | notModelled (mnemonic : String)
deriving DecidableEq, Repr

/-- The seven cipher elements of 10_state.md R20 and R28, under the spec's own names. -/
structure Cipher where
  /-- The LFSR in its sliding-window form, 32 words (R21). -/
  L : Vector Word 32
  /-- The slot the next clock overwrites (R24). -/
  ptr : BitVec 4
  /-- FSM registers (R25). -/
  R1 : Word
  R2 : Word
  /-- Derived registers (R26). -/
  next_r1 : Word
  next_r2 : Word
  fsm_out : Word
deriving DecidableEq, Repr

/-- The whole state. -/
structure State where
  /-- The seven cipher elements (R20). -/
  cipher : Cipher
  /-- The status bit (R28). -/
  keyed : Bool
  /-- The parameter SBOX (R9, R52), read only. The model's own field (log entry 5). -/
  sbox : SBox
  /-- The operand ports as sampled for the command in progress (R70, R71). The model's own field,
  overwritten when a command is accepted and read only by that command (log entry 8). -/
  ports : Ports
  /-- The host's acts still to come, the next one first. The model's own field (log entry 6). -/
  inputs : List HostEvent
  /-- The responses given so far, the oldest first: an output (R29). The model's own field (log
  entry 7). -/
  responses : List Response
  /-- Which free values the cipher elements take when they next become unspecified. The model's own
  field (log entry 4). -/
  freeCount : Nat
deriving DecidableEq, Repr

/-- Cipher elements without a known value (10_state.md R33, 60_exceptions.md R156): free values. Irreducible, so that comparing two states never unrolls the
buffer. -/
@[irreducible] def Cipher.unspecified (n : Nat) : Cipher where
  L := Vector.ofFn fun i => Config.freeWord n i.val
  ptr := Config.freePtr n
  R1 := Config.freeWord n 32
  R2 := Config.freeWord n 33
  next_r1 := Config.freeWord n 34
  next_r2 := Config.freeWord n 35
  fsm_out := Config.freeWord n 36

/-- The operand ports when the host drives none of them (log entry 8). -/
@[irreducible] def Ports.undriven : Ports where
  key := Vector.ofFn fun i => Config.undrivenByte i.val
  iv2 := Config.undrivenWord 2
  iv1 := Config.undrivenWord 1

/-- The state after reset: `keyed = 0`, every cipher element unspecified (10_state.md R33,
70_reset_and_hazards.md R181). The model's own fields: the uninterpreted tables, undriven ports, no act
of the host pending, no response given. DESIGN CHOICE: log entries 1, 4, 5, 6, 7, 8. -/
def State.reset : State where
  cipher := Cipher.unspecified 0
  keyed := false
  sbox := Config.sbox
  ports := Ports.undriven
  inputs := []
  responses := []
  freeCount := 1

end Sys2Proof.Machine
end

