-- ==== Sys2Proof/Machine/Flags.lean ====
section
/-! DEFINITION. The one status bit, `keyed` (10_state.md R28). The CORE has no condition codes, no carry
or overflow flag and no predicate (R31): there is no other flag to compute. -/

namespace Sys2Proof.Machine

/-- `keyed <- 1`, by a successful `LOAD_KEY` (43_load_key.md R131). -/
def State.setKeyed (s : State) : State := { s with keyed := true }

/-- `keyed <- 0`, by reset (70_reset_and_hazards.md R180) and by a failed `LOAD_KEY`
(60_exceptions.md R156). -/
def State.clearKeyed (s : State) : State := { s with keyed := false }

end Sys2Proof.Machine
end

