-- ==== Sys2Proof/Machine/Ops.lean ====
section
/-! DEFINITION. The named operations over the registers: reads and writes of the LFSR buffer
(20_memory.md R51), accepting a host's act (30_encoding.md R70), answering (R78), and raising an error,
the CORE's whole exception mechanism (60_exceptions.md R153). There is no return operation (R162). -/

namespace Sys2Proof.Machine

/-- `L[ptr + k]`, the plain sum without wrap (20_memory.md R51). For `k` in 1..16 it is the stage
`s_k` of 00_scope.md R13. -/
def Cipher.stage (c : Cipher) (k : Fin 17) : Word :=
  c.L[c.ptr.toNat + k.val]'(by have := c.ptr.isLt; omega)

/-- `L[ptr] <- v` and `L[ptr + 16] <- v`: both aliases of the pointer's slot (40_lfsr_gf232.md R96). -/
def Cipher.writeSlot (c : Cipher) (v : Word) : Cipher :=
  { c with
    L := (c.L.set c.ptr.toNat v (by have := c.ptr.isLt; omega)).set (c.ptr.toNat + 16) v
      (by have := c.ptr.isLt; omega) }

/-- The pointer step: decrement with wrap from 0 to 15 (40_lfsr_gf232.md R97). -/
def Cipher.stepPtr (c : Cipher) : Cipher :=
  { c with ptr := if c.ptr = 0 then 15 else c.ptr - 1 }

/-- The buffer with `f j` written to `L[lo + j]` for each `j` below `n`: the counted loops of
`LOAD_KEY` (43_load_key.md R132). Irreducible, so that comparing two states never unrolls the buffer;
its lemma is `fillWords_getElem`. -/
@[irreducible] def fillWords (L : Vector Word 32) (lo n : Nat) (f : Fin n → Word) : Vector Word 32 :=
  Vector.ofFn fun i =>
    if h : lo ≤ i.val ∧ i.val < lo + n then f ⟨i.val - lo, by omega⟩ else L[i.val]

/-- The command ends with response `r` (30_encoding.md R78). -/
def State.respond (s : State) (r : Response) : State :=
  { s with responses := s.responses ++ [r] }

/-- `keyed <- 0` with the seven cipher elements unspecified: what reset does (10_state.md R33) and what
a failed `LOAD_KEY` does (60_exceptions.md R156, 93 U1). Log entries 2 and 3. -/
def State.invalidate (s : State) : State :=
  { s.clearKeyed with cipher := Cipher.unspecified s.freeCount, freeCount := s.freeCount + 1 }

/-- Whether the error is one of the three of `LOAD_KEY`, which alone change the state (R153, R156). -/
def ErrorKind.failsLoad : ErrorKind → Bool
  | .invalidKeySize => true
  | .invalidMode => true
  | .keyTooShort => true
  | .notKeyed => false
  | .illegalCommand => false

/-- `raise e` (60_exceptions.md R153): the command ends, the response is `Error(code of e)` with no
word, and the state changes only as R156 says for the three `LOAD_KEY` errors, not at all for the two
others. Nothing is saved, no vector is taken and no mode changes. -/
def State.raise (s : State) (e : ErrorKind) : State :=
  if e.failsLoad then s.invalidate.respond (.error e) else s.respond (.error e)

/-- The command `c` is accepted: its operands are sampled onto the ports (30_encoding.md R70, R71) and
`rest` is what the host does after it. -/
def State.accept (s : State) (c : Command) (rest : List HostEvent) : State :=
  { s with ports := c.ports, inputs := rest }

/-- The host asserts reset (70_reset_and_hazards.md R180): `keyed <- 0`, every cipher element
unspecified, no response. Taken between commands (R182, log entry 3). -/
def State.takeReset (s : State) (rest : List HostEvent) : State :=
  { s.invalidate with inputs := rest }

end Sys2Proof.Machine
end

