-- ==== Sys2Proof/Machine/Fsm.lean ====
section
/-! DEFINITION. The FSM (41_fsm.md): the S-box function, the derive step and the commit step. -/

namespace Sys2Proof.Machine

/-- `SBOX[j][b]`, one read of the S-box ROM (20_memory.md R52). -/
def sboxRead (sbox : SBox) (j : Fin 4) (b : Byte) : Word := sbox[j.val][b.toNat]

/-- `SFN(r)`: table `j` read at byte `j` of `r`, the four words joined by OR (R105). -/
def sfn (sbox : SBox) (r : Word) : Word :=
  sboxRead sbox 0 (r.extractLsb 7 0) ||| sboxRead sbox 1 (r.extractLsb 15 8)
    ||| sboxRead sbox 2 (r.extractLsb 23 16) ||| sboxRead sbox 3 (r.extractLsb 31 24)

/-- `FSM_DERIVE` (R108): writes `fsm_out`, `next_r1`, `next_r2` from `R1`, `R2`, `L[ptr + 1]`. -/
def Cipher.derive (sbox : SBox) (c : Cipher) : Cipher :=
  let fsmOut := (c.R1 + c.stage TAP_FSM) ^^^ c.R2
  let tmp := rotl32 (fsmOut + c.R2) ROT
  { c with fsm_out := fsmOut, next_r1 := tmp ^^^ c.R1, next_r2 := sfn sbox c.R1 }

/-- `FSM_COMMIT` (R106, R108): `R1 <- next_r1`, `R2 <- next_r2`. -/
def Cipher.commit (c : Cipher) : Cipher := { c with R1 := c.next_r1, R2 := c.next_r2 }

end Sys2Proof.Machine
end

