-- ==== Sys2Proof/Machine/Lfsr.lean ====
section
/-! DEFINITION. The LFSR feedback processor (40_lfsr_gf232.md): taps, feedback symbol, LFSR step. -/

namespace Sys2Proof.Machine

/-- `TAPS = L[ptr + 7] ^ L[ptr + 13] ^ L[ptr + 16]` (R94). -/
def Cipher.taps (c : Cipher) : Word := c.stage TAP_A ^^^ c.stage TAP_B ^^^ c.stage TAP_C

/-- `FEEDBACK = alpha(TAPS ^ inj)`: the injection is inside the argument of `alpha` (R95). -/
def Cipher.feedback (c : Cipher) (inj : Word) : Word := alpha (c.taps ^^^ inj)

/-- `LFSR_STEP(inj)`: the feedback, both alias writes at the old pointer, the pointer step (R98). -/
def Cipher.lfsrStep (c : Cipher) (inj : Word) : Cipher := (c.writeSlot (c.feedback inj)).stepPtr

end Sys2Proof.Machine
end

