-- ==== Sys2Proof/Machine/Clocking.lean ====
section
/-! DEFINITION. The three micro-operations the controller is built from (42_clocking.md). They have no
encoding and act on the cipher elements only: none reads or writes `keyed`, an operand or the response
(R115), which their type says. -/

namespace Sys2Proof.Machine

/-- `UPDATE_INTERNALS` (R110): exactly `FSM_DERIVE`. -/
def Cipher.updateInternals (sbox : SBox) (c : Cipher) : Cipher := c.derive sbox

/-- `CLOCK` (R111): `LFSR_STEP(0)`, then `FSM_COMMIT`. -/
def Cipher.clock (c : Cipher) : Cipher := (c.lfsrStep 0).commit

/-- `FEEDBACK_CLOCK` (R112): `LFSR_STEP(fsm_out)`, with `fsm_out` as at entry, then `FSM_COMMIT`. -/
def Cipher.feedbackClock (c : Cipher) : Cipher := (c.lfsrStep c.fsm_out).commit

/-- The micro-operations as data, so that the sequence of a command can be written out (R113, R194). -/
inductive MicroOp where
  | updateInternals
  | clock
  | feedbackClock
deriving DecidableEq, Repr

/-- What one micro-operation does. -/
def MicroOp.run (sbox : SBox) : MicroOp → Cipher → Cipher
  | .updateInternals, c => c.updateInternals sbox
  | .clock, c => c.clock
  | .feedbackClock, c => c.feedbackClock

/-- A sequence of micro-operations, the first one first. -/
def runMicroOps (sbox : SBox) : List MicroOp → Cipher → Cipher
  | [], c => c
  | op :: ops, c => runMicroOps sbox ops (op.run sbox c)

end Sys2Proof.Machine
end

