-- ==== Sys2Proof/Machine/Keystream.lean ====
section
/-! DEFINITION. The keystream-word pipeline (44_keystream.md) and the meaning of `KEYSTREAM`. -/

namespace Sys2Proof.Machine

/-- Step 1: `rk <- fsm_out ^ L[ptr + 16]`, read before anything is changed (R141). -/
def Cipher.keystreamWord (c : Cipher) : Word := c.fsm_out ^^^ c.stage TAP_OUT

/-- Steps 2 and 3: one `CLOCK`, one `UPDATE_INTERNALS` (R142, R143). -/
def Cipher.advance (sbox : SBox) (c : Cipher) : Cipher := c.clock.updateInternals sbox

/-- `KEYSTREAM` as one transition (R145): `NotKeyed` if `keyed = 0`, else the word of step 1, with the
cipher advanced. -/
def execKeystream (s : State) : Host.Outcome State Fault Refusal :=
  if s.keyed then
    .next ({ s with cipher := s.cipher.advance s.sbox }.respond (.word s.cipher.keystreamWord))
  else .next (s.raise .notKeyed)

end Sys2Proof.Machine
end

