-- ==== Sys2Proof/Machine/Operands.lean ====
section
/-! DEFINITION. The operand forms of `LOAD_KEY` and the response port: legal key sizes and modes, the
checks in their order (60_exceptions.md R154), the big-endian key words (20_memory.md R55), and the
codes and words of a response (60_exceptions.md R150, 30_encoding.md R78, 20_memory.md R56). -/

namespace Sys2Proof.Machine

/-- The legal key sizes (00_scope.md R8). -/
inductive KeySize where
  | k128
  | k256
deriving DecidableEq, Repr

/-- How many words the key has: `KEY_BITS/32` (43_load_key.md R122). -/
def KeySize.words : KeySize → Nat
  | .k128 => 4
  | .k256 => 8

theorem KeySize.words_le (ks : KeySize) : ks.words ≤ 8 := by cases ks <;> decide

/-- The key size a field `KEY_BITS` names, if it is legal (60_exceptions.md R155). -/
def KeySize.ofBits (keyBits : Nat) : Option KeySize :=
  if keyBits = 128 then some .k128 else if keyBits = 256 then some .k256 else none

/-- The two modes (00_scope.md R8, R13). -/
inductive Mode where
  | standard
  | iv
deriving DecidableEq, Repr

/-- How many initial feedback clocks the mode runs: the tag itself (43_load_key.md R130). -/
def Mode.clocks : Mode → Nat
  | .standard => STANDARD_MODE
  | .iv => IV_MODE

/-- The mode a field `MODE` names, if it is legal (60_exceptions.md R157). -/
def Mode.ofTag (mode : Nat) : Option Mode :=
  if mode = STANDARD_MODE then some .standard else if mode = IV_MODE then some .iv else none

/-- The three checks of `LOAD_KEY` in the order of 60_exceptions.md R154; the first that fails is the
one reported. `KLEN` above 32 passes like 32 (30_encoding.md R74). -/
def checkLoadKey (klen mode keyBits : Nat) : Except ErrorKind (KeySize × Mode) :=
  match KeySize.ofBits keyBits with
  | none => .error .invalidKeySize
  | some ks =>
    match Mode.ofTag mode with
    | none => .error .invalidMode
    | some m => if klen < keyBits / 8 then .error .keyTooShort else .ok (ks, m)

/-- Key word `i`, assembled big-endian from lanes `4i` to `4i+3` (20_memory.md R55). -/
def keyWord (key : Vector Byte 32) (i : Fin 8) : Word :=
  (key[4 * i.val].setWidth 32 <<< 24) ||| (key[4 * i.val + 1].setWidth 32 <<< 16)
    ||| (key[4 * i.val + 2].setWidth 32 <<< 8) ||| key[4 * i.val + 3].setWidth 32

/-- The numeric code of an error kind (60_exceptions.md R150). -/
def ErrorKind.code : ErrorKind → BitVec 3
  | .invalidKeySize => 1
  | .invalidMode => 2
  | .keyTooShort => 3
  | .notKeyed => 4
  | .illegalCommand => 5

/-- The field `ERR` of a response, 0 on success (30_encoding.md R78). -/
def Response.err : Response → BitVec 3
  | .done => 0
  | .word _ => 0
  | .error e => e.code

/-- The field `RK` of a response, where it holds a value (30_encoding.md R78). -/
def Response.rk : Response → Option Word
  | .done => none
  | .word rk => some rk
  | .error _ => none

/-- The bytes of a keystream word in the order a collaborator serialises them: high byte first
(20_memory.md R56). The CORE itself does not serialise. -/
def serializeRK (rk : Word) : List Byte :=
  [rk.extractLsb 31 24, rk.extractLsb 23 16, rk.extractLsb 15 8, rk.extractLsb 7 0]

end Sys2Proof.Machine
end

