-- ==== Sys2Proof/Machine/LoadKey.lean ====
section
/-! DEFINITION. The key scheduler and initial-mixing controller (43_load_key.md): the eight steps of
`LOAD_KEY` one definition each, and its meaning. -/

namespace Sys2Proof.Machine

/-- Step 1, parse: `L[i]` for `i < KEY_BITS/32` from the key lanes (R122). -/
def Cipher.parseKey (ks : KeySize) (key : Vector Byte 32) (c : Cipher) : Cipher :=
  { c with
    L := fillWords c.L 0 ks.words fun i =>
      keyWord key ⟨i.val, Nat.lt_of_lt_of_le i.isLt ks.words_le⟩ }

/-- Step 2, expand (R123 for a 128-bit key, R124 for a 256-bit key). -/
def Cipher.expandKey : KeySize → Cipher → Cipher
  | .k128, c =>
    let L1 := fillWords c.L 4 4 fun i => ~~~ c.L[i.val]
    let L2 := fillWords L1 8 4 fun i => L1[i.val]
    { c with L := fillWords L2 12 4 fun i => ~~~ L2[i.val] }
  | .k256, c => { c with L := fillWords c.L 8 8 fun i => ~~~ c.L[i.val] }

/-- Step 3, IV injection: only in IV mode, `IV1` into word 0 and `IV2` into word 3 (R125). -/
def Cipher.injectIV (m : Mode) (iv2 iv1 : Word) (c : Cipher) : Cipher :=
  match m with
  | .standard => c
  | .iv =>
    let L1 := c.L.set 0 (c.L[0] ^^^ iv1)
    { c with L := L1.set 3 (L1[3] ^^^ iv2) }

/-- Step 4, mirror: `L[i + 16] <- L[i]` for `i` in 0..15 (R126). -/
def Cipher.mirror (c : Cipher) : Cipher := { c with L := fillWords c.L 16 16 fun i => c.L[i.val] }

/-- Step 5, reset the FSM: `R1 <- 0`, `R2 <- 0` (R127). -/
def Cipher.resetFSM (c : Cipher) : Cipher := { c with R1 := 0, R2 := 0 }

/-- Step 6, set the pointer: `ptr <- 15` (R128). -/
def Cipher.setPtr (c : Cipher) : Cipher := { c with ptr := PTR_INIT }

/-- Step 8, the mixing loop: `n` times the pair `FEEDBACK_CLOCK`, `UPDATE_INTERNALS` (R130). -/
def Cipher.mix (sbox : SBox) : Nat → Cipher → Cipher
  | 0, c => c
  | n + 1, c => Cipher.mix sbox n (c.feedbackClock.updateInternals sbox)

/-- Steps 1 to 6: the buffer, the FSM registers and the pointer are set. -/
def Cipher.setup (ks : KeySize) (m : Mode) (p : Ports) (c : Cipher) : Cipher :=
  ((((c.parseKey ks p.key).expandKey ks).injectIV m p.iv2 p.iv1).mirror.resetFSM).setPtr

/-- The eight steps in order, on the cipher elements (R132); step 7 primes the derived registers
(R129). -/
def Cipher.loadKey (sbox : SBox) (ks : KeySize) (m : Mode) (p : Ports) (c : Cipher) : Cipher :=
  ((c.setup ks m p).updateInternals sbox).mix sbox m.clocks

/-- `LOAD_KEY` as one transition (R132): the checks, or the eight steps, `keyed <- 1` and `Done`
(R131). -/
def execLoadKey (klen mode keyBits : Nat) (s : State) : Host.Outcome State Fault Refusal :=
  match checkLoadKey klen mode keyBits with
  | .error e => .next (s.raise e)
  | .ok (ks, m) =>
    .next (({ s with cipher := s.cipher.loadKey s.sbox ks m s.ports }.setKeyed).respond .done)

end Sys2Proof.Machine
end

