-- ==== Sys2Proof/Machine/Dispatch.lean ====
section
/-! DEFINITION. Which meaning each instruction has: one arm per constructor of `Instr`. -/

namespace Sys2Proof.Machine

/-- The effect of a decoded command on the state in which it was accepted. -/
def exec (i : Instr) (s : State) : Host.Outcome State Fault Refusal :=
  match i with
  | .loadKey klen mode keyBits => Sys2Proof.Machine.execLoadKey klen mode keyBits s
  | .keystream => Sys2Proof.Machine.execKeystream s

end Sys2Proof.Machine
end

