-- ==== Sys2Proof/Machine/Step.lean ====
section
/-! DEFINITION. One step: the host's next act (30_encoding.md R70, R76; 70_reset_and_hazards.md R180). -/

namespace Sys2Proof.Machine

/-- One act of the host, as one atomic transition (00_scope.md R7). A command is accepted, decoded and
executed; a word that does not decode raises `IllegalCommand` (60_exceptions.md R159). With no act
pending the CORE is idle and holds its state (R166, R193; log entry 6). -/
def step (s : State) : Host.Outcome State Fault Refusal :=
  match s.inputs with
  | [] => .next s
  | .reset :: rest => .next (s.takeReset rest)
  | .command c :: rest =>
    match decode c.cmd with
    | .error _ => .next ((s.accept c rest).raise .illegalCommand)
    | .ok i => exec i (s.accept c rest)

/-- The state in which the host issues the opcode-table word `w` of `nbits` bits as its very next act,
with the operand ports driven as they stand in `s`. The CORE fetches nothing (10_state.md R30), so this
is what stands for a program's load (log entry 6). -/
def State.withFetchWord (s : State) (nbits w : Nat) : State :=
  { s with inputs := .command ⟨tableWord nbits w, s.ports⟩ :: s.inputs }

end Sys2Proof.Machine
end

