-- ==== Sys2Proof/Machine/Assembler.lean ====
section
/-! DEFINITION. The assembler of 30_encoding.md R80 and R81: from the textual form, given as a list of
characters, to the commands the host issues. Its conventions are log entry 10. -/

namespace Sys2Proof.Machine

/-- One line of assembler text, parsed (R80, R81). -/
inductive AsmLine where
  | loadKey (key : List Byte) (keyBits mode : Nat) (iv2 iv1 : Word)
  | keystream (n : Nat)
deriving DecidableEq, Repr

/-- The KEY port driven with `bytes`: the first 32 of them, `key[0]` on lane 0 (R80); a lane above
carries no key byte (R53). -/
def keyPort (bytes : List Byte) : Vector Byte 32 :=
  Vector.ofFn fun i => (bytes[i.val]?).getD (Config.undrivenByte i.val)

/-- The commands of one line. `KLEN` is the key's length, capped at 63; `key_bits` and `mode` are
placed as they stand, legal or not (R80), and refused only where they do not fit their field (log entry
10). `KEYSTREAM n` with `n` positive is `n` times `KEYSTREAM` (R81). -/
def AsmLine.commands : AsmLine → Option (List Command)
  | .loadKey key keyBits mode iv2 iv1 =>
    let i := Instr.loadKey (min key.length 63) mode keyBits
    if i.wf then some [⟨encode i, ⟨keyPort key, iv2, iv1⟩⟩] else none
  | .keystream n =>
    if n = 0 then none else some (List.replicate n ⟨encode .keystream, Ports.undriven⟩)

/-- The value of a hexadecimal digit. -/
def hexDigit (ch : Char) : Option Nat :=
  let n := ch.toNat
  if 48 ≤ n ∧ n ≤ 57 then some (n - 48)
  else if 65 ≤ n ∧ n ≤ 70 then some (n - 55)
  else if 97 ≤ n ∧ n ≤ 102 then some (n - 87)
  else none

/-- The value of a decimal digit. -/
def decDigit (ch : Char) : Option Nat :=
  let n := ch.toNat
  if 48 ≤ n ∧ n ≤ 57 then some (n - 48) else none

/-- The value of a string of digits in the given base, the most significant first. -/
def digitsValue (base : Nat) (digit : Char → Option Nat) : List Char → Nat → Option Nat
  | [], acc => some acc
  | ch :: rest, acc =>
    match digit ch with
    | none => none
    | some d => digitsValue base digit rest (acc * base + d)

/-- A non-empty decimal integer. -/
def parseDec (cs : List Char) : Option Nat :=
  if cs = [] then none else digitsValue 10 decDigit cs 0

/-- A 32-bit word as eight hexadecimal digits (R80 `<hex32>`). -/
def parseHex32 (cs : List Char) : Option Word :=
  if cs.length = 8 then (digitsValue 16 hexDigit cs 0).map (BitVec.ofNat 32) else none

/-- Two-digit hexadecimal bytes (R80 `<hex bytes>`). -/
def parseBytes : List Char → Option (List Byte)
  | [] => some []
  | a :: b :: rest =>
    match hexDigit a, hexDigit b, parseBytes rest with
    | some x, some y, some bytes => some (BitVec.ofNat 8 (16 * x + y) :: bytes)
    | _, _, _ => none
  | [_] => none

/-- A decimal integer or one of the two names of R81. -/
def parseMode (cs : List Char) : Option Nat :=
  if cs = ['S','T','A','N','D','A','R','D','_','M','O','D','E'] then some STANDARD_MODE
  else if cs = ['I','V','_','M','O','D','E'] then some IV_MODE
  else parseDec cs

/-- The list cut at every `sep`. -/
def splitAt (sep : Char) : List Char → List (List Char)
  | [] => [[]]
  | ch :: rest =>
    if ch = sep then [] :: splitAt sep rest
    else
      match splitAt sep rest with
      | [] => [[ch]]
      | word :: words => (ch :: word) :: words

/-- Whether a character is a blank. -/
def isBlank (ch : Char) : Bool := ch = ' ' || ch = '\t' || ch = '\r'

/-- What stands after `name=` in a field, if the field has that name. -/
def fieldValue (name field : List Char) : Option (List Char) :=
  if (name ++ ['=']).isPrefixOf field then some (field.drop (name.length + 1)) else none

/-- An IV field at the head of the remaining fields, 0 if it is omitted (R80). -/
def optionalWord (name : List Char) : List (List Char) → Option (Word × List (List Char))
  | [] => some (0, [])
  | field :: rest =>
    match fieldValue name field with
    | none => some (0, field :: rest)
    | some v => (parseHex32 v).map fun w => (w, rest)

/-- The fields of `LOAD_KEY` in the order R80 shows. -/
def parseLoadKey : List (List Char) → Option AsmLine
  | f1 :: f2 :: f3 :: rest => do
    let key ← (fieldValue ['k','e','y'] f1) >>= parseBytes
    let keyBits ← (fieldValue ['k','e','y','_','b','i','t','s'] f2) >>= parseDec
    let mode ← (fieldValue ['m','o','d','e'] f3) >>= parseMode
    let (iv2, rest) ← optionalWord ['i','v','2'] rest
    let (iv1, rest) ← optionalWord ['i','v','1'] rest
    if rest = [] then some (.loadKey key keyBits mode iv2 iv1) else none
  | _ => none

/-- One line without its comment (`#` starts one, R80): `none` if it is malformed, `some none` if it is
empty. Blanks separate the name from its operands and are ignored elsewhere (log entry 10). -/
def parseLine (line : List Char) : Option (Option AsmLine) :=
  let text := (line.takeWhile (· ≠ '#')).dropWhile isBlank
  let name := text.takeWhile fun ch => !isBlank ch
  let operands := (text.drop name.length).filter fun ch => !isBlank ch
  if text = [] then some none
  else if name = ['L','O','A','D','_','K','E','Y'] then
    (parseLoadKey (splitAt ',' operands)).map some
  else if name = ['K','E','Y','S','T','R','E','A','M'] then
    if operands = [] then some (some (.keystream 1))
    else (parseDec operands).map fun n => some (.keystream n)
  else none

/-- The commands of a list of lines, in order. -/
def assembleLines : List (List Char) → Option (List Command)
  | [] => some []
  | line :: rest => do
    let parsed ← parseLine line
    let commands ← match parsed with
      | none => some []
      | some l => l.commands
    let more ← assembleLines rest
    some (commands ++ more)

/-- The commands of an assembler text, one command a line (R80). -/
def assemble (text : List Char) : Option (List Command) := assembleLines (splitAt '\n' text)

end Sys2Proof.Machine
end

