-- ==== Sys2Proof/Machine/System.lean ====
section
/-! DEFINITION. Several instances (60_exceptions.md R168): the product of independent copies of the
one-instance machine with the same SBOX. -/

namespace Sys2Proof.Machine

/-- The states of the instances; `NINST` (00_scope.md R9) is the length. -/
abbrev System := List State

/-- The instances are built with the one table `sbox` ("the same SBOX", R168). -/
def System.sharesSBox (sys : System) (sbox : SBox) : Bool := sys.all fun s => decide (s.sbox = sbox)

/-- Instance `n` takes one step and every other instance stays as it is (R168). An instance that does
not exist does nothing. -/
def System.stepAt (sys : System) (n : Nat) : Host.Outcome System Fault Refusal :=
  match sys[n]? with
  | none => .next sys
  | some s =>
    match step s with
    | .next s' => .next (sys.set n s')
    | .fault r => .fault r
    | .refused r => .refused r

end Sys2Proof.Machine
end

