-- ==== Sys2Proof/Machine/Reduced.lean ====
section
/-! DEFINITION. The reduced state of 10_state.md R34 read through the pointer: the sixteen stages and the
two FSM registers, and its map (42_clocking.md R114) and keystream word (44_keystream.md R149). A
second view of the same machine; the step does not use it. -/

namespace Sys2Proof.Machine

/-- Stages `s_1` to `s_16` (entry `k` holds `s_(k+1)`), `R1` and `R2` (R114, R149). -/
structure Reduced where
  stages : Vector Word 16
  R1 : Word
  R2 : Word
deriving DecidableEq, Repr

/-- The sixteen stages `s_k = L[ptr + k]`, `k` in 1..16 (00_scope.md R13). -/
@[irreducible] def Cipher.stages (c : Cipher) : Vector Word 16 :=
  Vector.ofFn fun k => c.stage ⟨k.val + 1, by omega⟩

/-- The reduced state of the cipher elements (10_state.md R34, R114). -/
def Cipher.reduce (c : Cipher) : Reduced where
  stages := c.stages
  R1 := c.R1
  R2 := c.R2

/-- The FSM output `F = (R1 +32 s_1) ^ R2` (R114). -/
def Reduced.fsmOutput (r : Reduced) : Word := (r.R1 + r.stages[0]) ^^^ r.R2

/-- The stages moved on by one: `s_(k+1)' = s_k` for `k` in 1..15 and `s_1' = v` (R114). -/
@[irreducible] def shiftStages (v : Word) (stages : Vector Word 16) : Vector Word 16 :=
  Vector.ofFn fun k => if k.val = 0 then v else stages[k.val - 1]

/-- The map of R114 for an injection `inj`. -/
def Reduced.next (sbox : SBox) (inj : Word) (r : Reduced) : Reduced where
  stages :=
    shiftStages (alpha (r.stages[6] ^^^ r.stages[12] ^^^ r.stages[15] ^^^ inj)) r.stages
  R1 := rotl32 (r.fsmOutput + r.R2) ROT ^^^ r.R1
  R2 := sfn sbox r.R1

/-- The reduced state `t` keystream words later (R149): the map with `inj = 0`, `t` times. -/
def Reduced.later (sbox : SBox) : Nat → Reduced → Reduced
  | 0, r => r
  | t + 1, r => Reduced.later sbox t (r.next sbox 0)

/-- The keystream word of a reduced state: `((R1 +32 s_1) ^ R2) ^ s_16` (R149). -/
def Reduced.word (r : Reduced) : Word := r.fsmOutput ^^^ r.stages[15]

end Sys2Proof.Machine
end

