-- ==== Sys2Proof/Safety.lean ====
section
/-! DEFINITION. What a consistent state is (the invariants of 10_state.md R22, R27, R28) and what a run
is, in the terms the statements use. -/

namespace Sys2Proof.Machine

/-- `INV_ALIAS`: `L[i] = L[i + 16]` for `i` in 0..15 (R22). -/
abbrev Cipher.InvAlias (c : Cipher) : Prop := ∀ i : Fin 16, c.L[i.val] = c.L[i.val + 16]

/-- `INV_DERIVED`: the derived registers are those of the current `R1`, `R2`, `L[ptr + 1]` (R27). -/
abbrev Cipher.InvDerived (sbox : SBox) (c : Cipher) : Prop :=
  c.fsm_out = (c.R1 + c.stage 1) ^^^ c.R2
    ∧ c.next_r1 = rotl32 (c.fsm_out + c.R2) 7 ^^^ c.R1
    ∧ c.next_r2 = sfn sbox c.R1

/-- The invariant of every step: while `keyed = 1`, `INV_ALIAS` and `INV_DERIVED` hold (R28). -/
abbrev State.Inv (s : State) : Prop :=
  s.keyed = true → s.cipher.InvAlias ∧ s.cipher.InvDerived s.sbox

/-- A legal `LOAD_KEY`: one that passes its three checks (60_exceptions.md R154). -/
abbrev LegalLoad (klen mode keyBits : Nat) : Prop :=
  (keyBits = 128 ∨ keyBits = 256) ∧ (mode = 64 ∨ mode = 32) ∧ keyBits / 8 ≤ klen

/-- The act of the host is a command that decodes to a legal `LOAD_KEY`. -/
def HostEvent.IsLegalLoad (e : HostEvent) : Prop :=
  ∃ c klen mode keyBits,
    e = .command c ∧ decode c.cmd = .ok (.loadKey klen mode keyBits) ∧ LegalLoad klen mode keyBits

/-- The act of the host is the command `KEYSTREAM`, whatever it drives on the ports. -/
def HostEvent.IsKeystream (e : HostEvent) : Prop := ∃ c, e = .command c ∧ decode c.cmd = .ok .keystream

/-- Word `i` of the buffer just before the mixing loop, in closed form (43_load_key.md R122 to R125):
the key words, then their complements and copies by groups of four (128-bit key) or the complements of
all eight (256-bit key), with `IV1` on word 0 and `IV2` on word 3 in IV mode only. -/
def loadedWord (keyBits mode : Nat) (p : Ports) (i : Fin 16) : Word :=
  let k4 := keyWord p.key ⟨i.val % 4, by omega⟩
  let k8 := keyWord p.key ⟨i.val % 8, by omega⟩
  let expanded :=
    if keyBits = 128 then (if i.val / 4 % 2 = 0 then k4 else ~~~ k4)
    else (if i.val < 8 then k8 else ~~~ k8)
  if mode = 32 ∧ i.val = 0 then expanded ^^^ p.iv1
  else if mode = 32 ∧ i.val = 3 then expanded ^^^ p.iv2
  else expanded

/-- The state after `n` steps, if each of them answers a next state. -/
def State.after : Nat → State → Option State
  | 0, s => some s
  | n + 1, s =>
    match step s with
    | .next t => State.after n t
    | .fault _ => none
    | .refused _ => none

end Sys2Proof.Machine
end

