-- ==== Sys2Proof/Certificates/Slice0/Obligations.lean ====
section
/-! DEFINITION. The statements for the provers. OBLIGATIONS.json lists them with their rules. -/

open Sys2Proof Sys2Proof.Machine

/-! ## Encoding -/

/-- The command words of the legal forms, both ways (30_encoding.md R82). -/
def Obligations.LegalFormsHaveTheWordsOfTheSpec : Prop :=
  decode 0x10108080#32 = .ok (.loadKey 16 64 128) ∧ encode (.loadKey 16 64 128) = 0x10108080#32 ∧
  decode 0x10104080#32 = .ok (.loadKey 16 32 128) ∧ encode (.loadKey 16 32 128) = 0x10104080#32 ∧
  decode 0x10208100#32 = .ok (.loadKey 32 64 256) ∧ encode (.loadKey 32 64 256) = 0x10208100#32 ∧
  decode 0x10204100#32 = .ok (.loadKey 32 32 256) ∧ encode (.loadKey 32 32 256) = 0x10204100#32 ∧
  decode 0x20000000#32 = .ok .keystream ∧ encode .keystream = 0x20000000#32

/-- Every command, with every operand at every value its field admits, is read back from its word. -/
def Obligations.DecodeOfEncodeIsTheInstruction : Prop :=
  ∀ i : Instr, i.wf = true → decode (encode i) = .ok i

/-- Every word that decodes is the word of what it decodes to, so each command has one word only. -/
def Obligations.EncodeOfDecodeIsTheWord : Prop :=
  ∀ (w : Word) (i : Instr), decode w = .ok i → i.wf = true ∧ encode i = w

/-- The decoding procedure, with every field read as an integer from the word's bits (30_encoding.md
R76). -/
def Obligations.DecodingFollowsTheProcedure : Prop :=
  ∀ w : Word,
    (w.toNat / 2 ^ 28 = 1 → w.toNat / 2 ^ 22 % 64 ≠ 0 → ∃ e, decode w = .error e) ∧
    (w.toNat / 2 ^ 28 = 1 → w.toNat / 2 ^ 22 % 64 = 0 →
      decode w = .ok (.loadKey (w.toNat / 2 ^ 16 % 64) (w.toNat / 2 ^ 9 % 128) (w.toNat % 512))) ∧
    (w.toNat / 2 ^ 28 = 2 → w.toNat % 2 ^ 28 ≠ 0 → ∃ e, decode w = .error e) ∧
    (w.toNat / 2 ^ 28 = 2 → w.toNat % 2 ^ 28 = 0 → decode w = .ok .keystream) ∧
    (w.toNat / 2 ^ 28 ≠ 1 → w.toNat / 2 ^ 28 ≠ 2 → ∃ e, decode w = .error e)

/-! ## The step -/

/-- A command whose word decodes is accepted, its operands are sampled onto the ports, and `exec` runs
it. -/
def Obligations.StepRunsTheDecodedCommand : Prop :=
  ∀ (s : State) (c : Command) (rest : List HostEvent) (i : Instr),
    s.inputs = .command c :: rest → decode c.cmd = .ok i →
      step s = exec i { s with ports := c.ports, inputs := rest }

/-- A word that does not decode is answered `IllegalCommand`, code 5, and changes none of the CORE's
state, `keyed` included (60_exceptions.md R159). -/
def Obligations.IllegalCommandChangesNoState : Prop :=
  ∀ (s : State) (c : Command) (rest : List HostEvent) (why : Illegal),
    s.inputs = .command c :: rest → decode c.cmd = .error why →
      step s = .next { s with
        ports := c.ports
        inputs := rest
        responses := s.responses ++ [.error .illegalCommand] }
      ∧ (Response.error .illegalCommand).err = 5

/-- Reset clears `keyed`, gives no response and leaves the tables alone. Nothing is said of the seven
cipher elements, which are unspecified afterwards. -/
def Obligations.ResetClearsKeyedWithoutResponse : Prop :=
  ∀ (s : State) (rest : List HostEvent), s.inputs = .reset :: rest →
    ∃ t, step s = .next t ∧ t.keyed = false ∧ t.responses = s.responses ∧ t.sbox = s.sbox
      ∧ t.ports = s.ports ∧ t.inputs = rest

/-- With no act of the host pending the CORE is idle and holds its state. That the model's step then
answers the same state is the model's choice (log entry 6). -/
def Obligations.IdleStepHoldsTheState : Prop :=
  ∀ s : State, s.inputs = [] → step s = .next s

/-- Every finite run completes: no step faults or is refused, from any state and under any acts of the
host. -/
def Obligations.EveryRunCompletes : Prop :=
  ∀ (n : Nat) (s : State), ∃ t, s.after n = some t

/-- Every command produces exactly one response, and the response carries a keystream word if and only
if the command was `KEYSTREAM` and `ERR = 0` (30_encoding.md R78). -/
def Obligations.OneResponsePerCommand : Prop :=
  ∀ (s : State) (c : Command) (rest : List HostEvent), s.inputs = .command c :: rest →
    ∃ (t : State) (r : Response), step s = .next t ∧ t.inputs = rest
      ∧ t.responses = s.responses ++ [r]
      ∧ ((∃ w, r.rk = some w) ↔ (decode c.cmd = .ok .keystream ∧ r.err = 0))
      ∧ (r.err = 0 → (∀ klen mode keyBits, decode c.cmd = .ok (.loadKey klen mode keyBits) →
          r = .done))

/-- The numeric codes of the responses; codes 6 and 7 are never produced. -/
def Obligations.ResponseCodes : Prop :=
  Response.done.err = 0 ∧ (∀ w, (Response.word w).err = 0)
    ∧ (Response.error .invalidKeySize).err = 1 ∧ (Response.error .invalidMode).err = 2
    ∧ (Response.error .keyTooShort).err = 3 ∧ (Response.error .notKeyed).err = 4
    ∧ (Response.error .illegalCommand).err = 5
    ∧ ∀ r : Response, r.err ≠ 6 ∧ r.err ≠ 7

/-! ## LOAD_KEY -/

/-- A legal `LOAD_KEY` completes: the response is `Done`, `keyed` is 1, and the cipher elements are
those of the primed state `c0` (steps 1 to 7, each word in closed form) after the mixing loop. Nothing
else of the state changes. -/
def Obligations.LegalLoadKeyCompletes : Prop :=
  ∀ (klen mode keyBits : Nat) (s : State), LegalLoad klen mode keyBits →
    ∃ (t : State) (c0 : Cipher),
      exec (.loadKey klen mode keyBits) s = .next t
      ∧ t.keyed = true ∧ t.responses = s.responses ++ [.done]
      ∧ t.sbox = s.sbox ∧ t.ports = s.ports ∧ t.inputs = s.inputs ∧ t.freeCount = s.freeCount
      ∧ (∀ i : Fin 16, c0.L[i.val] = loadedWord keyBits mode s.ports i
          ∧ c0.L[i.val + 16] = loadedWord keyBits mode s.ports i)
      ∧ c0.R1 = 0 ∧ c0.R2 = 0 ∧ c0.ptr = 15
      ∧ c0.fsm_out = c0.L[0] ∧ c0.next_r1 = rotl32 c0.L[0] 7 ∧ c0.next_r2 = sfn s.sbox 0
      ∧ t.cipher = (fun c : Cipher => c.feedbackClock.updateInternals s.sbox)^[mode] c0
      ∧ t.cipher.ptr = 15

/-- After parsing, the bytes of word `i` are key bytes `4i` to `4i+3`, the first one most significant
(20_memory.md R55). -/
def Obligations.KeyBytesAreBigEndian : Prop :=
  ∀ (c : Cipher) (ks : KeySize) (key : Vector Byte 32) (i : Nat) (h : i < 8), i < ks.words →
    (c.parseKey ks key).L[i].extractLsb 31 24 = key[4 * i]
      ∧ (c.parseKey ks key).L[i].extractLsb 23 16 = key[4 * i + 1]
      ∧ (c.parseKey ks key).L[i].extractLsb 15 8 = key[4 * i + 2]
      ∧ (c.parseKey ks key).L[i].extractLsb 7 0 = key[4 * i + 3]

/-- `LOAD_KEY` makes its three checks in the order key size, mode, key length, and the first that fails
is the one reported. The failed command clears `keyed` and changes nothing else that has a value:
nothing is said of the seven cipher elements, which are unspecified afterwards. -/
def Obligations.LoadKeyReportsTheFirstFailedCheck : Prop :=
  ∀ (klen mode keyBits : Nat) (s : State) (e : ErrorKind),
    ((keyBits ≠ 128 ∧ keyBits ≠ 256 ∧ e = .invalidKeySize)
      ∨ ((keyBits = 128 ∨ keyBits = 256) ∧ mode ≠ 64 ∧ mode ≠ 32 ∧ e = .invalidMode)
      ∨ ((keyBits = 128 ∨ keyBits = 256) ∧ (mode = 64 ∨ mode = 32) ∧ klen < keyBits / 8
        ∧ e = .keyTooShort)) →
      ∃ t, exec (.loadKey klen mode keyBits) s = .next t ∧ t.responses = s.responses ++ [.error e]
        ∧ t.keyed = false ∧ t.sbox = s.sbox ∧ t.ports = s.ports ∧ t.inputs = s.inputs

/-- After a successful `LOAD_KEY` both invariants hold, `ptr = 15` and `keyed = 1`
(43_load_key.md R136). -/
def Obligations.LoadKeyLeavesAConsistentState : Prop :=
  ∀ (klen mode keyBits : Nat) (s : State), LegalLoad klen mode keyBits →
    ∃ t, exec (.loadKey klen mode keyBits) s = .next t ∧ t.cipher.InvAlias
      ∧ t.cipher.InvDerived t.sbox ∧ t.cipher.ptr = 15 ∧ t.keyed = true

/-- The cipher elements a successful `LOAD_KEY` leaves depend on its operands and `SBOX` alone: two
states with nothing else in common give the same (43_load_key.md R133). -/
def Obligations.LoadKeyForgetsThePriorState : Prop :=
  ∀ (klen mode keyBits : Nat) (s t : State), LegalLoad klen mode keyBits → s.sbox = t.sbox →
    s.ports = t.ports →
      ∃ s' t', exec (.loadKey klen mode keyBits) s = .next s'
        ∧ exec (.loadKey klen mode keyBits) t = .next t'
        ∧ s'.cipher = t'.cipher ∧ s'.keyed = t'.keyed

/-- In standard mode `LOAD_KEY` ignores `IV1` and `IV2`: driving the IV ports otherwise gives the same
response and the same `keyed`, and after a legal load the same state but for those ports
(43_load_key.md R134). Of a failing load nothing is said about the cipher elements, which it leaves
unspecified (60_exceptions.md R156). -/
def Obligations.StandardModeIgnoresTheIV : Prop :=
  ∀ (klen keyBits : Nat) (s : State) (iv2 iv1 : Word),
    ∃ t t', exec (.loadKey klen 64 keyBits) s = .next t
      ∧ exec (.loadKey klen 64 keyBits) { s with ports := { s.ports with iv2 := iv2, iv1 := iv1 } }
        = .next t'
      ∧ t'.responses = t.responses ∧ t'.keyed = t.keyed ∧ t'.sbox = t.sbox ∧ t'.inputs = t.inputs
      ∧ (LegalLoad klen 64 keyBits →
          t' = { t with ports := { s.ports with iv2 := iv2, iv1 := iv1 } })

/-- Key bytes at and beyond `KEY_BITS/8` are not read, and any `KLEN` that passes the check means the
same: two legal loads that agree on the lanes below `KEY_BITS/8` succeed and leave the same cipher
(43_load_key.md R138). -/
def Obligations.KeyBytesBeyondTheKeyAreIgnored : Prop :=
  ∀ (klen klen' mode keyBits : Nat) (s : State) (key : Vector Byte 32),
    LegalLoad klen mode keyBits → LegalLoad klen' mode keyBits →
    (∀ (i : Nat) (h : i < 32), i < keyBits / 8 → key[i] = s.ports.key[i]) →
      ∃ t, exec (.loadKey klen mode keyBits) s = .next t ∧ t.keyed = true
        ∧ exec (.loadKey klen' mode keyBits) { s with ports := { s.ports with key := key } }
          = .next { t with ports := { s.ports with key := key } }

/-- Each command runs its micro-program, with the logical counts of 70_reset_and_hazards.md R194: a legal
`LOAD_KEY` one `UPDATE_INTERNALS` and then `MODE` times the pair `FEEDBACK_CLOCK`, `UPDATE_INTERNALS`,
with no `CLOCK`; a `KEYSTREAM` of a keyed state one `CLOCK` and one `UPDATE_INTERNALS`. -/
def Obligations.CommandsRunTheirMicroPrograms : Prop :=
  (∀ (klen mode keyBits : Nat) (s : State), LegalLoad klen mode keyBits →
    ∃ (t : State) (ks : KeySize) (m : Mode) (ops : List MicroOp),
      keyBits = 32 * ks.words ∧ mode = m.clocks
      ∧ ops = .updateInternals
          :: (List.replicate mode [MicroOp.feedbackClock, MicroOp.updateInternals]).flatten
      ∧ ops.count .feedbackClock = mode ∧ ops.count .updateInternals = mode + 1
      ∧ ops.count .clock = 0
      ∧ exec (.loadKey klen mode keyBits) s = .next t
      ∧ t.cipher = runMicroOps s.sbox ops (s.cipher.setup ks m s.ports))
  ∧ ∀ s : State, s.keyed = true →
    ∃ t, exec .keystream s = .next t
      ∧ t.cipher = runMicroOps s.sbox [.clock, .updateInternals] s.cipher

/-! ## KEYSTREAM -/

/-- `KEYSTREAM` as one transition (44_keystream.md R145). Keyed: the word is `fsm_out ^ L[ptr + 16]` as
they stand before, both aliases take the feedback, the pointer steps, `R1` and `R2` commit, the derived
registers are those of the new state, and nothing else changes. Not keyed: `NotKeyed`, and nothing else
changes. -/
def Obligations.KeystreamTransition : Prop :=
  ∀ s : State,
    (s.keyed = true →
      ∃ t, exec .keystream s = .next t
        ∧ t.responses = s.responses ++ [.word (s.cipher.fsm_out ^^^ s.cipher.stage 16)]
        ∧ (∀ (i : Nat) (h : i < 32), t.cipher.L[i]
            = if i = s.cipher.ptr.toNat ∨ i = s.cipher.ptr.toNat + 16
              then alpha (s.cipher.stage 7 ^^^ s.cipher.stage 13 ^^^ s.cipher.stage 16)
              else s.cipher.L[i])
        ∧ t.cipher.ptr.toNat = (if s.cipher.ptr.toNat = 0 then 15 else s.cipher.ptr.toNat - 1)
        ∧ t.cipher.R1 = s.cipher.next_r1 ∧ t.cipher.R2 = s.cipher.next_r2
        ∧ t.cipher.InvDerived s.sbox
        ∧ t.keyed = true ∧ t.sbox = s.sbox ∧ t.ports = s.ports ∧ t.inputs = s.inputs
        ∧ t.freeCount = s.freeCount)
    ∧ (s.keyed = false →
      exec .keystream s = .next { s with responses := s.responses ++ [.error .notKeyed] })

/-- From a consistent keyed state, `n` `KEYSTREAM` commands in a row, whatever is driven on the operand
ports, answer exactly the words `z_0` to `z_(n-1)` of the reduced state's recurrence, for every `n`, and
leave the recurrence's state (44_keystream.md R149). -/
def Obligations.KeystreamIsTheReducedSequence : Prop :=
  ∀ (evs rest : List HostEvent) (s : State), s.keyed = true → s.Inv →
    (∀ e ∈ evs, e.IsKeystream) → s.inputs = evs ++ rest →
      ∃ t, s.after evs.length = some t
        ∧ t.responses = s.responses
          ++ (List.range evs.length).map (fun k =>
              Response.word ((s.cipher.reduce.later s.sbox k).word))
        ∧ t.cipher.reduce = s.cipher.reduce.later s.sbox evs.length
        ∧ t.keyed = true ∧ t.Inv ∧ t.inputs = rest

/-- Exactly one logical clock per word. Of `n` `KEYSTREAM` commands in a keyed state each one replaces the
slot that `ptr` then names, in both aliases, by the feedback of its step, and no other word; so after
all of them `ptr` is `n` lower modulo 16 and every word whose slot none of them reached is untouched. -/
def Obligations.EachKeystreamReplacesOneSlot : Prop :=
  ∀ (evs rest : List HostEvent) (s : State), s.keyed = true → (∀ e ∈ evs, e.IsKeystream) →
    s.inputs = evs ++ rest →
      (∀ k < evs.length, ∃ u v, s.after k = some u ∧ s.after (k + 1) = some v
        ∧ u.cipher.ptr.toNat = (s.cipher.ptr.toNat + 15 * k) % 16
        ∧ ∀ (i : Nat) (h : i < 32), v.cipher.L[i]
            = if i % 16 = u.cipher.ptr.toNat
              then alpha (u.cipher.stage 7 ^^^ u.cipher.stage 13 ^^^ u.cipher.stage 16)
              else u.cipher.L[i])
      ∧ ∃ t, s.after evs.length = some t
        ∧ t.cipher.ptr.toNat = (s.cipher.ptr.toNat + 15 * evs.length) % 16
        ∧ ∀ (i : Nat) (h : i < 32),
            (∀ k < evs.length, i % 16 ≠ (s.cipher.ptr.toNat + 15 * k) % 16) →
              t.cipher.L[i] = s.cipher.L[i]

/-! ## Micro-operations and functions -/

/-- `alpha`, with the corner cases of 40_lfsr_gf232.md R91. -/
def Obligations.AlphaIsShiftAndConditionalXor : Prop :=
  (∀ w : Word, w.getLsbD 31 = false → alpha w = w <<< 1)
    ∧ (∀ w : Word, w.getLsbD 31 = true → alpha w = (w <<< 1) ^^^ 0x20108403#32)
    ∧ alpha 0#32 = 0#32 ∧ alpha 0x80000000#32 = 0x20108403#32
    ∧ alpha 0xFFFFFFFF#32 = 0xDFEF7BFD#32 ∧ alpha 0x40000000#32 = 0x80000000#32
    ∧ alpha 1#32 = 2#32

/-- `alpha` is linear, its bit 0 is the argument's bit 31, and `alphaInv` is its inverse on both sides
(40_lfsr_gf232.md R92). -/
def Obligations.AlphaIsALinearBijection : Prop :=
  (∀ a b : Word, alpha (a ^^^ b) = alpha a ^^^ alpha b)
    ∧ (∀ w : Word, (alpha w).getLsbD 0 = w.getLsbD 31)
    ∧ (∀ w : Word, alphaInv (alpha w) = w) ∧ (∀ v : Word, alpha (alphaInv v) = v)

/-- The rotation of the FSM: bit `i` goes to bit `(i + 7) mod 32`, the corner cases, its inverse, and its
place in the derive step (41_fsm.md R103). -/
def Obligations.RotationMovesEachBitBySeven : Prop :=
  (∀ x : Word, rotl32 x 7 = (x <<< 7) ||| (x >>> 25))
    ∧ (∀ (x : Word) (i : Nat), i < 32 → (rotl32 x 7).getLsbD ((i + 7) % 32) = x.getLsbD i)
    ∧ rotl32 0x00000001#32 7 = 0x00000080#32 ∧ rotl32 0x80000000#32 7 = 0x00000040#32
    ∧ rotl32 0xFE000000#32 7 = 0x0000007F#32 ∧ rotl32 0x02000000#32 7 = 0x00000001#32
    ∧ rotl32 0xFFFFFFFF#32 7 = 0xFFFFFFFF#32 ∧ rotl32 0#32 7 = 0#32
    ∧ (∀ x : Word, rotr32 x 7 = (x >>> 7) ||| (x <<< 25))
    ∧ (∀ x : Word, rotl32 (rotr32 x 7) 7 = x)
    ∧ (∀ (sbox : SBox) (c : Cipher), (c.updateInternals sbox).next_r1
        = rotl32 ((c.updateInternals sbox).fsm_out + c.R2) 7 ^^^ c.R1)

/-- Bit `i` of `next_r2` after the derive step is the OR of bit `i` of the four words that tables 0 to 3
hold at bytes 0 to 3 of the current `R1`, byte 0 the least significant. -/
def Obligations.NextR2IsTheOrOfFourLookups : Prop :=
  ∀ (sbox : SBox) (c : Cipher) (i : Nat),
    (c.updateInternals sbox).next_r2.getLsbD i
      = (sbox[0][c.R1.toNat % 256].getLsbD i || sbox[1][c.R1.toNat / 256 % 256].getLsbD i
        || sbox[2][c.R1.toNat / 65536 % 256].getLsbD i
        || sbox[3][c.R1.toNat / 16777216 % 256].getLsbD i)

/-- `UPDATE_INTERNALS`: the three derived registers from `R1`, `R2`, `L[ptr + 1]`, sums modulo 2^32;
nothing else changes; `INV_DERIVED` holds after it; twice is once (42_clocking.md R110). -/
def Obligations.UpdateInternalsDerives : Prop :=
  ∀ (sbox : SBox) (c : Cipher),
    (c.updateInternals sbox).fsm_out
        = BitVec.ofNat 32 (c.R1.toNat + (c.stage 1).toNat) ^^^ c.R2
      ∧ (c.updateInternals sbox).next_r1
        = rotl32 (((c.R1 + c.stage 1) ^^^ c.R2) + c.R2) 7 ^^^ c.R1
      ∧ (c.updateInternals sbox).next_r2 = sfn sbox c.R1
      ∧ (c.updateInternals sbox).L = c.L ∧ (c.updateInternals sbox).ptr = c.ptr
      ∧ (c.updateInternals sbox).R1 = c.R1 ∧ (c.updateInternals sbox).R2 = c.R2
      ∧ (c.updateInternals sbox).InvDerived sbox
      ∧ (c.updateInternals sbox).updateInternals sbox = c.updateInternals sbox
      ∧ (c.R1 = 0 → c.R2 = 0 →
          (c.updateInternals sbox).fsm_out = c.stage 1
          ∧ (c.updateInternals sbox).next_r1 = rotl32 (c.stage 1) 7
          ∧ (c.updateInternals sbox).next_r2
            = (sbox[0][0] ||| sbox[1][0] ||| sbox[2][0] ||| sbox[3][0]))

/-- `LFSR_STEP(inj)` word by word: both aliases of the old pointer's slot take
`alpha(L[ptr+7] ^ L[ptr+13] ^ L[ptr+16] ^ inj)` with the taps read before the writes, no other word
changes, the pointer decrements with wrap, no FSM register changes; and where the aliases agree the
stages move on by one (40_lfsr_gf232.md R96, R97, R98). -/
def Obligations.LfsrStepShiftsTheStages : Prop :=
  ∀ (c : Cipher) (inj : Word),
    (∀ (i : Nat) (h : i < 32), (c.lfsrStep inj).L[i]
        = if i = c.ptr.toNat ∨ i = c.ptr.toNat + 16
          then alpha (c.stage 7 ^^^ c.stage 13 ^^^ c.stage 16 ^^^ inj) else c.L[i])
      ∧ (c.lfsrStep inj).ptr.toNat = (if c.ptr.toNat = 0 then 15 else c.ptr.toNat - 1)
      ∧ (c.lfsrStep inj).R1 = c.R1 ∧ (c.lfsrStep inj).R2 = c.R2
      ∧ (c.lfsrStep inj).next_r1 = c.next_r1 ∧ (c.lfsrStep inj).next_r2 = c.next_r2
      ∧ (c.lfsrStep inj).fsm_out = c.fsm_out
      ∧ (c.InvAlias →
          (c.lfsrStep inj).stage 1 = alpha (c.stage 7 ^^^ c.stage 13 ^^^ c.stage 16 ^^^ inj)
          ∧ ∀ k : Fin 17, 1 ≤ k.val → (h : k.val ≤ 15) →
              (c.lfsrStep inj).stage ⟨k.val + 1, by omega⟩ = c.stage k)

/-- An LFSR step reads no FSM register; any sequence of steps keeps `INV_ALIAS` and the FSM registers;
and sixteen consecutive ones write every slot exactly once, in the order 15, 14, ..., 0 from `ptr = 15` (40_lfsr_gf232.md R99). -/
def Obligations.SixteenLfsrStepsWriteEverySlotOnce : Prop :=
  (∀ (c c' : Cipher) (inj : Word), c.L = c'.L → c.ptr = c'.ptr →
    (c.lfsrStep inj).L = (c'.lfsrStep inj).L ∧ (c.lfsrStep inj).ptr = (c'.lfsrStep inj).ptr) ∧
  ∀ (d : Nat → Cipher) (inj : Nat → Word), (∀ k, d (k + 1) = (d k).lfsrStep (inj k)) →
    (∀ k, (d 0).InvAlias → (d k).InvAlias)
    ∧ (∀ k, (d k).R1 = (d 0).R1 ∧ (d k).R2 = (d 0).R2 ∧ (d k).next_r1 = (d 0).next_r1
        ∧ (d k).next_r2 = (d 0).next_r2 ∧ (d k).fsm_out = (d 0).fsm_out)
    ∧ (∀ (k i : Nat) (h : i < 32), i % 16 ≠ (d k).ptr.toNat → (d (k + 1)).L[i] = (d k).L[i])
    ∧ (∀ (k i : Nat) (h : i < 32), i % 16 = (d k).ptr.toNat →
        (d (k + 1)).L[i] = (d k).feedback (inj k))
    ∧ (∀ n j, j < 16 → ∃ k, n ≤ k ∧ k < n + 16 ∧ (d k).ptr.toNat = j
        ∧ ∀ k', n ≤ k' → k' < n + 16 → (d k').ptr.toNat = j → k' = k)
    ∧ ((d 0).ptr = 15 → ∀ k, k < 16 → (d k).ptr.toNat = 15 - k)

/-- `CLOCK` and `FEEDBACK_CLOCK` element by element; they agree when `fsm_out = 0`
(42_clocking.md R111, R112). -/
def Obligations.ClocksStepAndCommit : Prop :=
  ∀ c : Cipher,
    (∀ (i : Nat) (h : i < 32), c.clock.L[i]
        = if i = c.ptr.toNat ∨ i = c.ptr.toNat + 16
          then alpha (c.stage 7 ^^^ c.stage 13 ^^^ c.stage 16) else c.L[i])
      ∧ (∀ (i : Nat) (h : i < 32), c.feedbackClock.L[i]
        = if i = c.ptr.toNat ∨ i = c.ptr.toNat + 16
          then alpha (c.stage 7 ^^^ c.stage 13 ^^^ c.stage 16 ^^^ c.fsm_out) else c.L[i])
      ∧ (∀ d, (d = c.clock ∨ d = c.feedbackClock) →
          d.ptr.toNat = (if c.ptr.toNat = 0 then 15 else c.ptr.toNat - 1)
          ∧ d.R1 = c.next_r1 ∧ d.R2 = c.next_r2
          ∧ d.next_r1 = c.next_r1 ∧ d.next_r2 = c.next_r2 ∧ d.fsm_out = c.fsm_out)
      ∧ (c.fsm_out = 0 → c.feedbackClock = c.clock)

/-- In terms of the reduced state, `CLOCK ; UPDATE_INTERNALS` is the map with `inj = 0` and
`FEEDBACK_CLOCK ; UPDATE_INTERNALS` the map with `inj = F`, and the derived registers follow
(42_clocking.md R114). -/
def Obligations.PairsAreTheReducedMap : Prop :=
  ∀ (sbox : SBox) (c : Cipher), c.InvAlias → c.InvDerived sbox →
    (c.clock.updateInternals sbox).reduce = c.reduce.next sbox 0
      ∧ (c.feedbackClock.updateInternals sbox).reduce = c.reduce.next sbox c.reduce.fsmOutput
      ∧ (c.clock.updateInternals sbox).InvDerived sbox
      ∧ (c.feedbackClock.updateInternals sbox).InvDerived sbox

/-- Where the aliases agree, every read `L[ptr + k]` is the read `L[(ptr + k) mod 16]` of the 16-word
ring, and a clock's two writes are one write of the ring: its words 0 to 15 change at `ptr` only, and
the aliases agree again. -/
def Obligations.SixteenWordRingReadsTheSame : Prop :=
  ∀ (c : Cipher) (v : Word), c.InvAlias →
    (∀ k : Fin 17, c.stage k = c.L[(c.ptr.toNat + k.val) % 16])
      ∧ (∀ (i : Nat) (h : i < 16),
          (c.writeSlot v).L[i] = if i = c.ptr.toNat then v else c.L[i])
      ∧ (c.writeSlot v).InvAlias

/-- Under the two invariants the sixteen stages, `ptr`, `R1` and `R2` determine all seven cipher
elements (10_state.md R34). -/
def Obligations.ReducedStateDeterminesTheCipher : Prop :=
  ∀ (sbox : SBox) (c d : Cipher), c.InvAlias → d.InvAlias → c.InvDerived sbox → d.InvDerived sbox →
    c.ptr = d.ptr → c.reduce = d.reduce → c = d

/-! ## Whole-machine rules -/

/-- After reset the CORE is not keyed, no response has been given, and the invariant holds. -/
def Obligations.ResetStateIsNotKeyed : Prop :=
  State.reset.keyed = false ∧ State.reset.responses = [] ∧ State.reset.Inv

/-- From every state that meets it, every step keeps the invariant: while `keyed = 1`, `INV_ALIAS` and
`INV_DERIVED` hold. -/
def Obligations.StepKeepsTheInvariant : Prop :=
  ∀ s t : State, s.Inv → step s = .next t → t.Inv

/-- What makes `keyed` 1 is a legal `LOAD_KEY`, and what makes it 0 is reset or a `LOAD_KEY` that is not
legal; every such act does so. -/
def Obligations.KeyedFollowsLoadsAndResets : Prop :=
  ∀ s t : State, step s = .next t →
    (s.keyed = false → t.keyed = true → ∃ e rest, s.inputs = e :: rest ∧ e.IsLegalLoad)
    ∧ (s.keyed = true → t.keyed = false → ∃ e rest, s.inputs = e :: rest ∧ (e = .reset
        ∨ ∃ c klen mode keyBits, e = .command c ∧ decode c.cmd = .ok (.loadKey klen mode keyBits)
          ∧ ¬ LegalLoad klen mode keyBits))
    ∧ (∀ e rest, s.inputs = e :: rest → e.IsLegalLoad → t.keyed = true)
    ∧ (∀ rest, s.inputs = .reset :: rest → t.keyed = false)
    ∧ (∀ c rest klen mode keyBits, s.inputs = .command c :: rest →
        decode c.cmd = .ok (.loadKey klen mode keyBits) → ¬ LegalLoad klen mode keyBits →
          t.keyed = false)

/-- The cipher elements change only in a `LOAD_KEY`, in a `KEYSTREAM` of a keyed state, or by reset. -/
def Obligations.OnlyLoadKeystreamAndResetChangeTheCipher : Prop :=
  ∀ s t : State, step s = .next t → t.cipher ≠ s.cipher →
    ∃ e rest, s.inputs = e :: rest ∧ (e = .reset ∨ (e.IsKeystream ∧ s.keyed = true)
      ∨ ∃ c klen mode keyBits, e = .command c ∧ decode c.cmd = .ok (.loadKey klen mode keyBits))

/-- No run writes the S-box tables. -/
def Obligations.SBoxIsNeverWritten : Prop :=
  ∀ (n : Nat) (s t : State), s.after n = some t → t.sbox = s.sbox

/-- Operands and responses of earlier commands are not kept: two states that differ only in them take
steps that answer the same new responses and agree on `keyed`, the tables and the pending acts, and on
the cipher elements too unless the act is reset or a `LOAD_KEY` that fails, which leave those elements
unspecified (10_state.md R33, 60_exceptions.md R156). That `freeCount`, the model's own field, counts
alike is the model's choice (log entry 4). -/
def Obligations.EarlierOperandsAndResponsesAreForgotten : Prop :=
  ∀ (s : State) (p : Ports) (rs : List Response),
    ∃ t t' new, step s = .next t ∧ step { s with ports := p, responses := rs } = .next t'
      ∧ t.responses = s.responses ++ new ∧ t'.responses = rs ++ new
      ∧ t'.keyed = t.keyed ∧ t'.sbox = t.sbox ∧ t'.inputs = t.inputs ∧ t'.freeCount = t.freeCount
      ∧ ((∀ rest, s.inputs ≠ .reset :: rest) →
          (∀ c rest klen mode keyBits, s.inputs = .command c :: rest →
            decode c.cmd = .ok (.loadKey klen mode keyBits) → LegalLoad klen mode keyBits) →
          t'.cipher = t.cipher)

/-- While the CORE is not keyed its cipher elements cannot be observed: two such states with the same
tables give the same responses to the same acts of the host, for ever. -/
def Obligations.UnkeyedCipherIsUnobservable : Prop :=
  ∀ (n : Nat) (s t : State), s.keyed = false → t.keyed = false → s.sbox = t.sbox →
    s.inputs = t.inputs →
      ∃ s' t' new, s.after n = some s' ∧ t.after n = some t'
        ∧ s'.responses = s.responses ++ new ∧ t'.responses = t.responses ++ new

/-- A legal `LOAD_KEY` resets everything a response can show: two instances with the same tables, in any
states whatever, that are given the same legal load and then the same acts answer alike, for ever
(43_load_key.md R135). -/
def Obligations.ReloadForgetsThePast : Prop :=
  ∀ (n : Nat) (s t : State) (e : HostEvent) (rest : List HostEvent), e.IsLegalLoad →
    s.sbox = t.sbox → s.inputs = e :: rest → t.inputs = e :: rest →
      ∃ s' t' new, s.after n = some s' ∧ t.after n = some t'
        ∧ s'.responses = s.responses ++ new ∧ t'.responses = t.responses ++ new

/-- From a state that is not keyed, a run in which the host never issues a legal `LOAD_KEY` answers
errors only: no keystream word, no `Done`; and the CORE stays unkeyed. -/
def Obligations.NoKeystreamWithoutALegalLoad : Prop :=
  ∀ (n : Nat) (s t : State), s.keyed = false → (∀ e ∈ s.inputs, ¬ e.IsLegalLoad) →
    s.after n = some t →
      t.keyed = false
      ∧ ∃ new, t.responses = s.responses ++ new ∧ ∀ r ∈ new, ∃ err, r = Response.error err

/-- A step of one instance leaves every other instance as it is, takes its own instance where a step
alone takes it, and keeps the tables common. -/
def Obligations.InstancesDoNotInterfere : Prop :=
  ∀ (sys : System) (n : Nat) (s : State), sys[n]? = some s →
    ∃ sys' s', sys.stepAt n = .next sys' ∧ step s = .next s' ∧ sys'[n]? = some s'
      ∧ (∀ m, m ≠ n → sys'[m]? = sys[m]?) ∧ sys'.length = sys.length
      ∧ ∀ sbox, sys.sharesSBox sbox = true → sys'.sharesSBox sbox = true

/-! ## The response port and the assembler -/

/-- A keystream word serialised is its four bytes, high byte first. -/
def Obligations.SerializedWordIsBigEndian : Prop :=
  ∀ b0 b1 b2 b3 : Byte, serializeRK (b0 ++ b1 ++ b2 ++ b3) = [b0, b1, b2, b3]

/-- `KEYSTREAM n` expands to `n` consecutive `KEYSTREAM` commands and yields `n` responses in order,
words if the CORE is keyed and consistent (30_encoding.md R81). -/
def Obligations.KeystreamPseudoCommandYieldsNResponses : Prop :=
  ∀ (n : Nat) (s : State), 0 < n →
    ∃ cs, (AsmLine.keystream n).commands = some cs ∧ cs.length = n
      ∧ (∀ c ∈ cs, decode c.cmd = .ok .keystream)
      ∧ (s.inputs = cs.map .command →
          ∃ t new, s.after n = some t ∧ t.responses = s.responses ++ new ∧ new.length = n
            ∧ t.inputs = []
            ∧ (s.keyed = true → s.Inv → new = (List.range n).map fun k =>
                Response.word ((s.cipher.reduce.later s.sbox k).word)))

/-- A line `LOAD_KEY` is one command: `KLEN` is the key's length capped at 63, `KEY_BITS` and `MODE`
stand as written, legal or not, key byte `i` is on lane `i`, and the IV words are on their ports. -/
def Obligations.LoadKeyLineEncodesItsOperands : Prop :=
  ∀ (key : List Byte) (keyBits mode : Nat) (iv2 iv1 : Word), keyBits < 512 → mode < 128 →
    ∃ c, (AsmLine.loadKey key keyBits mode iv2 iv1).commands = some [c]
      ∧ decode c.cmd = .ok (.loadKey (min key.length 63) mode keyBits)
      ∧ c.ports.iv2 = iv2 ∧ c.ports.iv1 = iv1
      ∧ ∀ (i : Nat) (h : i < 32) (h' : i < key.length), c.ports.key[i] = key[i]
end

