-- ==== Sys2Proof/Laws/Cipher.lean ====
section
/-! SUPPORT. One lemma per field per update of the cipher elements, and what the writes of the LFSR
buffer leave in each word. -/

namespace Sys2Proof.Machine

@[simp] theorem Cipher.writeSlot_L (c : Cipher) (v : Word) :
    (c.writeSlot v).L = (c.L.set c.ptr.toNat v (by have := c.ptr.isLt; omega)).set (c.ptr.toNat + 16) v
      (by have := c.ptr.isLt; omega) := rfl
@[simp] theorem Cipher.writeSlot_ptr (c : Cipher) (v : Word) :
    (c.writeSlot v).ptr = c.ptr := rfl
@[simp] theorem Cipher.writeSlot_R1 (c : Cipher) (v : Word) :
    (c.writeSlot v).R1 = c.R1 := rfl
@[simp] theorem Cipher.writeSlot_R2 (c : Cipher) (v : Word) :
    (c.writeSlot v).R2 = c.R2 := rfl
@[simp] theorem Cipher.writeSlot_next_r1 (c : Cipher) (v : Word) :
    (c.writeSlot v).next_r1 = c.next_r1 := rfl
@[simp] theorem Cipher.writeSlot_next_r2 (c : Cipher) (v : Word) :
    (c.writeSlot v).next_r2 = c.next_r2 := rfl
@[simp] theorem Cipher.writeSlot_fsm_out (c : Cipher) (v : Word) :
    (c.writeSlot v).fsm_out = c.fsm_out := rfl

@[simp] theorem Cipher.stepPtr_L (c : Cipher) :
    (c.stepPtr).L = c.L := rfl
@[simp] theorem Cipher.stepPtr_ptr (c : Cipher) :
    (c.stepPtr).ptr = if c.ptr = 0 then 15 else c.ptr - 1 := rfl
@[simp] theorem Cipher.stepPtr_R1 (c : Cipher) :
    (c.stepPtr).R1 = c.R1 := rfl
@[simp] theorem Cipher.stepPtr_R2 (c : Cipher) :
    (c.stepPtr).R2 = c.R2 := rfl
@[simp] theorem Cipher.stepPtr_next_r1 (c : Cipher) :
    (c.stepPtr).next_r1 = c.next_r1 := rfl
@[simp] theorem Cipher.stepPtr_next_r2 (c : Cipher) :
    (c.stepPtr).next_r2 = c.next_r2 := rfl
@[simp] theorem Cipher.stepPtr_fsm_out (c : Cipher) :
    (c.stepPtr).fsm_out = c.fsm_out := rfl

@[simp] theorem Cipher.lfsrStep_L (c : Cipher) (inj : Word) :
    (c.lfsrStep inj).L = (c.writeSlot (c.feedback inj)).L := rfl
@[simp] theorem Cipher.lfsrStep_ptr (c : Cipher) (inj : Word) :
    (c.lfsrStep inj).ptr = if c.ptr = 0 then 15 else c.ptr - 1 := rfl
@[simp] theorem Cipher.lfsrStep_R1 (c : Cipher) (inj : Word) :
    (c.lfsrStep inj).R1 = c.R1 := rfl
@[simp] theorem Cipher.lfsrStep_R2 (c : Cipher) (inj : Word) :
    (c.lfsrStep inj).R2 = c.R2 := rfl
@[simp] theorem Cipher.lfsrStep_next_r1 (c : Cipher) (inj : Word) :
    (c.lfsrStep inj).next_r1 = c.next_r1 := rfl
@[simp] theorem Cipher.lfsrStep_next_r2 (c : Cipher) (inj : Word) :
    (c.lfsrStep inj).next_r2 = c.next_r2 := rfl
@[simp] theorem Cipher.lfsrStep_fsm_out (c : Cipher) (inj : Word) :
    (c.lfsrStep inj).fsm_out = c.fsm_out := rfl

@[simp] theorem Cipher.commit_L (c : Cipher) :
    (c.commit).L = c.L := rfl
@[simp] theorem Cipher.commit_ptr (c : Cipher) :
    (c.commit).ptr = c.ptr := rfl
@[simp] theorem Cipher.commit_R1 (c : Cipher) :
    (c.commit).R1 = c.next_r1 := rfl
@[simp] theorem Cipher.commit_R2 (c : Cipher) :
    (c.commit).R2 = c.next_r2 := rfl
@[simp] theorem Cipher.commit_next_r1 (c : Cipher) :
    (c.commit).next_r1 = c.next_r1 := rfl
@[simp] theorem Cipher.commit_next_r2 (c : Cipher) :
    (c.commit).next_r2 = c.next_r2 := rfl
@[simp] theorem Cipher.commit_fsm_out (c : Cipher) :
    (c.commit).fsm_out = c.fsm_out := rfl

@[simp] theorem Cipher.derive_L (c : Cipher) (sbox : SBox) :
    (c.derive sbox).L = c.L := rfl
@[simp] theorem Cipher.derive_ptr (c : Cipher) (sbox : SBox) :
    (c.derive sbox).ptr = c.ptr := rfl
@[simp] theorem Cipher.derive_R1 (c : Cipher) (sbox : SBox) :
    (c.derive sbox).R1 = c.R1 := rfl
@[simp] theorem Cipher.derive_R2 (c : Cipher) (sbox : SBox) :
    (c.derive sbox).R2 = c.R2 := rfl
@[simp] theorem Cipher.derive_next_r1 (c : Cipher) (sbox : SBox) :
    (c.derive sbox).next_r1 = rotl32 (((c.R1 + c.stage 1) ^^^ c.R2) + c.R2) 7 ^^^ c.R1 := rfl
@[simp] theorem Cipher.derive_next_r2 (c : Cipher) (sbox : SBox) :
    (c.derive sbox).next_r2 = sfn sbox c.R1 := rfl
@[simp] theorem Cipher.derive_fsm_out (c : Cipher) (sbox : SBox) :
    (c.derive sbox).fsm_out = (c.R1 + c.stage 1) ^^^ c.R2 := rfl

@[simp] theorem Cipher.updateInternals_L (c : Cipher) (sbox : SBox) :
    (c.updateInternals sbox).L = c.L := rfl
@[simp] theorem Cipher.updateInternals_ptr (c : Cipher) (sbox : SBox) :
    (c.updateInternals sbox).ptr = c.ptr := rfl
@[simp] theorem Cipher.updateInternals_R1 (c : Cipher) (sbox : SBox) :
    (c.updateInternals sbox).R1 = c.R1 := rfl
@[simp] theorem Cipher.updateInternals_R2 (c : Cipher) (sbox : SBox) :
    (c.updateInternals sbox).R2 = c.R2 := rfl
@[simp] theorem Cipher.updateInternals_next_r1 (c : Cipher) (sbox : SBox) :
    (c.updateInternals sbox).next_r1 = rotl32 (((c.R1 + c.stage 1) ^^^ c.R2) + c.R2) 7 ^^^ c.R1 := rfl
@[simp] theorem Cipher.updateInternals_next_r2 (c : Cipher) (sbox : SBox) :
    (c.updateInternals sbox).next_r2 = sfn sbox c.R1 := rfl
@[simp] theorem Cipher.updateInternals_fsm_out (c : Cipher) (sbox : SBox) :
    (c.updateInternals sbox).fsm_out = (c.R1 + c.stage 1) ^^^ c.R2 := rfl

@[simp] theorem Cipher.clock_L (c : Cipher) :
    (c.clock).L = (c.writeSlot (c.feedback 0)).L := rfl
@[simp] theorem Cipher.clock_ptr (c : Cipher) :
    (c.clock).ptr = if c.ptr = 0 then 15 else c.ptr - 1 := rfl
@[simp] theorem Cipher.clock_R1 (c : Cipher) :
    (c.clock).R1 = c.next_r1 := rfl
@[simp] theorem Cipher.clock_R2 (c : Cipher) :
    (c.clock).R2 = c.next_r2 := rfl
@[simp] theorem Cipher.clock_next_r1 (c : Cipher) :
    (c.clock).next_r1 = c.next_r1 := rfl
@[simp] theorem Cipher.clock_next_r2 (c : Cipher) :
    (c.clock).next_r2 = c.next_r2 := rfl
@[simp] theorem Cipher.clock_fsm_out (c : Cipher) :
    (c.clock).fsm_out = c.fsm_out := rfl

@[simp] theorem Cipher.feedbackClock_L (c : Cipher) :
    (c.feedbackClock).L = (c.writeSlot (c.feedback c.fsm_out)).L := rfl
@[simp] theorem Cipher.feedbackClock_ptr (c : Cipher) :
    (c.feedbackClock).ptr = if c.ptr = 0 then 15 else c.ptr - 1 := rfl
@[simp] theorem Cipher.feedbackClock_R1 (c : Cipher) :
    (c.feedbackClock).R1 = c.next_r1 := rfl
@[simp] theorem Cipher.feedbackClock_R2 (c : Cipher) :
    (c.feedbackClock).R2 = c.next_r2 := rfl
@[simp] theorem Cipher.feedbackClock_next_r1 (c : Cipher) :
    (c.feedbackClock).next_r1 = c.next_r1 := rfl
@[simp] theorem Cipher.feedbackClock_next_r2 (c : Cipher) :
    (c.feedbackClock).next_r2 = c.next_r2 := rfl
@[simp] theorem Cipher.feedbackClock_fsm_out (c : Cipher) :
    (c.feedbackClock).fsm_out = c.fsm_out := rfl

@[simp] theorem Cipher.resetFSM_L (c : Cipher) :
    (c.resetFSM).L = c.L := rfl
@[simp] theorem Cipher.resetFSM_ptr (c : Cipher) :
    (c.resetFSM).ptr = c.ptr := rfl
@[simp] theorem Cipher.resetFSM_R1 (c : Cipher) :
    (c.resetFSM).R1 = 0 := rfl
@[simp] theorem Cipher.resetFSM_R2 (c : Cipher) :
    (c.resetFSM).R2 = 0 := rfl
@[simp] theorem Cipher.resetFSM_next_r1 (c : Cipher) :
    (c.resetFSM).next_r1 = c.next_r1 := rfl
@[simp] theorem Cipher.resetFSM_next_r2 (c : Cipher) :
    (c.resetFSM).next_r2 = c.next_r2 := rfl
@[simp] theorem Cipher.resetFSM_fsm_out (c : Cipher) :
    (c.resetFSM).fsm_out = c.fsm_out := rfl

@[simp] theorem Cipher.setPtr_L (c : Cipher) :
    (c.setPtr).L = c.L := rfl
@[simp] theorem Cipher.setPtr_ptr (c : Cipher) :
    (c.setPtr).ptr = 15 := rfl
@[simp] theorem Cipher.setPtr_R1 (c : Cipher) :
    (c.setPtr).R1 = c.R1 := rfl
@[simp] theorem Cipher.setPtr_R2 (c : Cipher) :
    (c.setPtr).R2 = c.R2 := rfl
@[simp] theorem Cipher.setPtr_next_r1 (c : Cipher) :
    (c.setPtr).next_r1 = c.next_r1 := rfl
@[simp] theorem Cipher.setPtr_next_r2 (c : Cipher) :
    (c.setPtr).next_r2 = c.next_r2 := rfl
@[simp] theorem Cipher.setPtr_fsm_out (c : Cipher) :
    (c.setPtr).fsm_out = c.fsm_out := rfl

@[simp] theorem Cipher.mirror_L (c : Cipher) :
    (c.mirror).L = fillWords c.L 16 16 fun i => c.L[i.val] := rfl
@[simp] theorem Cipher.mirror_ptr (c : Cipher) :
    (c.mirror).ptr = c.ptr := rfl
@[simp] theorem Cipher.mirror_R1 (c : Cipher) :
    (c.mirror).R1 = c.R1 := rfl
@[simp] theorem Cipher.mirror_R2 (c : Cipher) :
    (c.mirror).R2 = c.R2 := rfl
@[simp] theorem Cipher.mirror_next_r1 (c : Cipher) :
    (c.mirror).next_r1 = c.next_r1 := rfl
@[simp] theorem Cipher.mirror_next_r2 (c : Cipher) :
    (c.mirror).next_r2 = c.next_r2 := rfl
@[simp] theorem Cipher.mirror_fsm_out (c : Cipher) :
    (c.mirror).fsm_out = c.fsm_out := rfl

/-- Every word of a filled buffer: the new value inside the range, the old one outside. -/
theorem fillWords_getElem (L : Vector Word 32) (lo n : Nat) (f : Fin n → Word) (i : Nat)
    (hi : i < 32) :
    (fillWords L lo n f)[i]
      = if h : lo ≤ i ∧ i < lo + n then f ⟨i - lo, by omega⟩ else L[i] := by
  simp [fillWords]

/-- Every word after the two alias writes (40_lfsr_gf232.md R96). -/
theorem Cipher.writeSlot_getElem (c : Cipher) (v : Word) (i : Nat) (hi : i < 32) :
    (c.writeSlot v).L[i]
      = if i = c.ptr.toNat ∨ i = c.ptr.toNat + 16 then v else c.L[i] := by
  simp only [Cipher.writeSlot_L, Vector.getElem_set]
  split <;> split <;> simp_all
  omega

/-- The new pointer as a number: one less modulo 16 (40_lfsr_gf232.md R97). -/
theorem stepPtr_toNat (p : BitVec 4) :
    (if p = 0 then 15 else p - 1 : BitVec 4).toNat = (p.toNat + 15) % 16 := by
  revert p
  decide

/-- The mixing loop is the pair `FEEDBACK_CLOCK`, `UPDATE_INTERNALS` iterated (43_load_key.md R130). -/
theorem Cipher.mix_eq_iterate (sbox : SBox) (n : Nat) (c : Cipher) :
    c.mix sbox n = (fun d : Cipher => d.feedbackClock.updateInternals sbox)^[n] c := by
  induction n generalizing c with
  | zero => rfl
  | succ n ih => rw [Function.iterate_succ_apply, ← ih]; rfl

end Sys2Proof.Machine
end

