-- ==== Sys2Proof/Laws/State.lean ====
section
/-! SUPPORT. One lemma per field per update of `State`: what each named operation leaves in each field. -/

namespace Sys2Proof.Machine

@[simp] theorem State.setKeyed_cipher (s : State) :
    (s.setKeyed).cipher = s.cipher := rfl
@[simp] theorem State.setKeyed_keyed (s : State) :
    (s.setKeyed).keyed = true := rfl
@[simp] theorem State.setKeyed_sbox (s : State) :
    (s.setKeyed).sbox = s.sbox := rfl
@[simp] theorem State.setKeyed_ports (s : State) :
    (s.setKeyed).ports = s.ports := rfl
@[simp] theorem State.setKeyed_inputs (s : State) :
    (s.setKeyed).inputs = s.inputs := rfl
@[simp] theorem State.setKeyed_responses (s : State) :
    (s.setKeyed).responses = s.responses := rfl
@[simp] theorem State.setKeyed_freeCount (s : State) :
    (s.setKeyed).freeCount = s.freeCount := rfl

@[simp] theorem State.clearKeyed_cipher (s : State) :
    (s.clearKeyed).cipher = s.cipher := rfl
@[simp] theorem State.clearKeyed_keyed (s : State) :
    (s.clearKeyed).keyed = false := rfl
@[simp] theorem State.clearKeyed_sbox (s : State) :
    (s.clearKeyed).sbox = s.sbox := rfl
@[simp] theorem State.clearKeyed_ports (s : State) :
    (s.clearKeyed).ports = s.ports := rfl
@[simp] theorem State.clearKeyed_inputs (s : State) :
    (s.clearKeyed).inputs = s.inputs := rfl
@[simp] theorem State.clearKeyed_responses (s : State) :
    (s.clearKeyed).responses = s.responses := rfl
@[simp] theorem State.clearKeyed_freeCount (s : State) :
    (s.clearKeyed).freeCount = s.freeCount := rfl

@[simp] theorem State.respond_cipher (s : State) (r : Response) :
    (s.respond r).cipher = s.cipher := rfl
@[simp] theorem State.respond_keyed (s : State) (r : Response) :
    (s.respond r).keyed = s.keyed := rfl
@[simp] theorem State.respond_sbox (s : State) (r : Response) :
    (s.respond r).sbox = s.sbox := rfl
@[simp] theorem State.respond_ports (s : State) (r : Response) :
    (s.respond r).ports = s.ports := rfl
@[simp] theorem State.respond_inputs (s : State) (r : Response) :
    (s.respond r).inputs = s.inputs := rfl
@[simp] theorem State.respond_responses (s : State) (r : Response) :
    (s.respond r).responses = s.responses ++ [r] := rfl
@[simp] theorem State.respond_freeCount (s : State) (r : Response) :
    (s.respond r).freeCount = s.freeCount := rfl

@[simp] theorem State.invalidate_cipher (s : State) :
    (s.invalidate).cipher = Cipher.unspecified s.freeCount := rfl
@[simp] theorem State.invalidate_keyed (s : State) :
    (s.invalidate).keyed = false := rfl
@[simp] theorem State.invalidate_sbox (s : State) :
    (s.invalidate).sbox = s.sbox := rfl
@[simp] theorem State.invalidate_ports (s : State) :
    (s.invalidate).ports = s.ports := rfl
@[simp] theorem State.invalidate_inputs (s : State) :
    (s.invalidate).inputs = s.inputs := rfl
@[simp] theorem State.invalidate_responses (s : State) :
    (s.invalidate).responses = s.responses := rfl
@[simp] theorem State.invalidate_freeCount (s : State) :
    (s.invalidate).freeCount = s.freeCount + 1 := rfl

@[simp] theorem State.accept_cipher (s : State) (c : Command) (rest : List HostEvent) :
    (s.accept c rest).cipher = s.cipher := rfl
@[simp] theorem State.accept_keyed (s : State) (c : Command) (rest : List HostEvent) :
    (s.accept c rest).keyed = s.keyed := rfl
@[simp] theorem State.accept_sbox (s : State) (c : Command) (rest : List HostEvent) :
    (s.accept c rest).sbox = s.sbox := rfl
@[simp] theorem State.accept_ports (s : State) (c : Command) (rest : List HostEvent) :
    (s.accept c rest).ports = c.ports := rfl
@[simp] theorem State.accept_inputs (s : State) (c : Command) (rest : List HostEvent) :
    (s.accept c rest).inputs = rest := rfl
@[simp] theorem State.accept_responses (s : State) (c : Command) (rest : List HostEvent) :
    (s.accept c rest).responses = s.responses := rfl
@[simp] theorem State.accept_freeCount (s : State) (c : Command) (rest : List HostEvent) :
    (s.accept c rest).freeCount = s.freeCount := rfl

@[simp] theorem State.takeReset_cipher (s : State) (rest : List HostEvent) :
    (s.takeReset rest).cipher = Cipher.unspecified s.freeCount := rfl
@[simp] theorem State.takeReset_keyed (s : State) (rest : List HostEvent) :
    (s.takeReset rest).keyed = false := rfl
@[simp] theorem State.takeReset_sbox (s : State) (rest : List HostEvent) :
    (s.takeReset rest).sbox = s.sbox := rfl
@[simp] theorem State.takeReset_ports (s : State) (rest : List HostEvent) :
    (s.takeReset rest).ports = s.ports := rfl
@[simp] theorem State.takeReset_inputs (s : State) (rest : List HostEvent) :
    (s.takeReset rest).inputs = rest := rfl
@[simp] theorem State.takeReset_responses (s : State) (rest : List HostEvent) :
    (s.takeReset rest).responses = s.responses := rfl
@[simp] theorem State.takeReset_freeCount (s : State) (rest : List HostEvent) :
    (s.takeReset rest).freeCount = s.freeCount + 1 := rfl

/-- Raising an error answers with it and leaves the model's own fields alone (60_exceptions.md R153). -/
theorem State.raise_frame (s : State) (e : ErrorKind) :
    (s.raise e).responses = s.responses ++ [.error e] ∧ (s.raise e).sbox = s.sbox
      ∧ (s.raise e).ports = s.ports ∧ (s.raise e).inputs = s.inputs := by
  cases e <;> exact ⟨rfl, rfl, rfl, rfl⟩

/-- An error of `LOAD_KEY` ends the session (60_exceptions.md R156). -/
theorem State.raise_failsLoad (s : State) (e : ErrorKind) (h : e.failsLoad = true) :
    s.raise e = s.invalidate.respond (.error e) := by
  simp [State.raise, h]

/-- Any other error changes nothing but the responses (60_exceptions.md R153). -/
theorem State.raise_not_failsLoad (s : State) (e : ErrorKind) (h : e.failsLoad = false) :
    s.raise e = s.respond (.error e) := by
  simp [State.raise, h]

end Sys2Proof.Machine
end

