-- ==== Sys2Proof/Laws/Exec.lean ====
section
/-! SUPPORT. What the checks of `LOAD_KEY`, the two meanings and the step can do, said once. -/

namespace Sys2Proof.Machine

/-- Everything the three checks can answer, in their order (60_exceptions.md R154). -/
theorem checkLoadKey_cases (klen mode keyBits : Nat) :
    (keyBits ≠ 128 ∧ keyBits ≠ 256 ∧ checkLoadKey klen mode keyBits = .error .invalidKeySize)
      ∨ ((keyBits = 128 ∨ keyBits = 256) ∧ mode ≠ 64 ∧ mode ≠ 32
        ∧ checkLoadKey klen mode keyBits = .error .invalidMode)
      ∨ ((keyBits = 128 ∨ keyBits = 256) ∧ (mode = 64 ∨ mode = 32) ∧ klen < keyBits / 8
        ∧ checkLoadKey klen mode keyBits = .error .keyTooShort)
      ∨ (LegalLoad klen mode keyBits ∧ ∃ ks m, checkLoadKey klen mode keyBits = .ok (ks, m)
        ∧ keyBits = 32 * ks.words ∧ mode = m.clocks) := by
  unfold checkLoadKey KeySize.ofBits Mode.ofTag LegalLoad
  by_cases h128 : keyBits = 128
  · subst h128
    by_cases h64 : mode = 64
    · subst h64
      by_cases hk : klen < 16
      · simp [hk]
      · exact .inr (.inr (.inr ⟨by omega, .k128, .standard, by simp [hk], rfl, rfl⟩))
    · by_cases h32 : mode = 32
      · subst h32
        by_cases hk : klen < 16
        · simp [hk]
        · exact .inr (.inr (.inr ⟨by omega, .k128, .iv, by simp [hk], rfl, rfl⟩))
      · simp [h64, h32]
  · by_cases h256 : keyBits = 256
    · subst h256
      by_cases h64 : mode = 64
      · subst h64
        by_cases hk : klen < 32
        · simp [hk]
        · exact .inr (.inr (.inr ⟨by omega, .k256, .standard, by simp [hk], rfl, rfl⟩))
      · by_cases h32 : mode = 32
        · subst h32
          by_cases hk : klen < 32
          · simp [hk]
          · exact .inr (.inr (.inr ⟨by omega, .k256, .iv, by simp [hk], rfl, rfl⟩))
        · simp [h64, h32]
    · simp [h128, h256]

/-- `LOAD_KEY` either raises one of its errors or loads. -/
theorem execLoadKey_cases (klen mode keyBits : Nat) (s : State) :
    (∃ e, e.failsLoad = true ∧ ¬ LegalLoad klen mode keyBits
        ∧ execLoadKey klen mode keyBits s = .next (s.invalidate.respond (.error e)))
      ∨ (∃ ks m, keyBits = 32 * ks.words ∧ mode = m.clocks ∧ LegalLoad klen mode keyBits
        ∧ execLoadKey klen mode keyBits s = .next
            (({ s with cipher := s.cipher.loadKey s.sbox ks m s.ports }.setKeyed).respond .done)) := by
  unfold execLoadKey
  rcases checkLoadKey_cases klen mode keyBits with
    ⟨h1, h2, h⟩ | ⟨h1, h2, h3, h⟩ | ⟨h1, h2, h3, h⟩ | ⟨legal, ks, m, h, hk, hm⟩
  · exact .inl ⟨_, rfl, fun l => by have := l.1; omega, by simp only [h]; rfl⟩
  · exact .inl ⟨_, rfl, fun l => by have := l.2.1; omega, by simp only [h]; rfl⟩
  · exact .inl ⟨_, rfl, fun l => by have := l.2.2; omega, by simp only [h]; rfl⟩
  · exact .inr ⟨ks, m, hk, hm, legal, by simp only [h]⟩

/-- `KEYSTREAM` in a keyed state. -/
theorem execKeystream_keyed (s : State) (h : s.keyed = true) :
    execKeystream s = .next
      ({ s with cipher := s.cipher.advance s.sbox }.respond (.word s.cipher.keystreamWord)) := by
  simp [execKeystream, h]

/-- `KEYSTREAM` in a state that is not keyed. -/
theorem execKeystream_not_keyed (s : State) (h : s.keyed = false) :
    execKeystream s = .next (s.respond (.error .notKeyed)) := by
  simp [execKeystream, h, State.raise, ErrorKind.failsLoad]

/-- Every step is one of these: idle, reset, an illegal word, or a decoded command. -/
theorem step_cases (s : State) :
    (s.inputs = [] ∧ step s = .next s)
      ∨ (∃ rest, s.inputs = .reset :: rest ∧ step s = .next (s.takeReset rest))
      ∨ (∃ c rest why, s.inputs = .command c :: rest ∧ decode c.cmd = .error why
          ∧ step s = .next ((s.accept c rest).respond (.error .illegalCommand)))
      ∨ (∃ c rest i, s.inputs = .command c :: rest ∧ decode c.cmd = .ok i
          ∧ step s = exec i (s.accept c rest)) := by
  unfold step
  cases hin : s.inputs with
  | nil => exact .inl ⟨rfl, rfl⟩
  | cons e rest =>
    cases e with
    | reset => exact .inr (.inl ⟨rest, rfl, rfl⟩)
    | command c =>
      cases hd : decode c.cmd with
      | error why =>
        refine .inr (.inr (.inl ⟨c, rest, why, rfl, hd, ?_⟩))
        simp only [hd]
        rfl
      | ok i =>
        refine .inr (.inr (.inr ⟨c, rest, i, rfl, hd, ?_⟩))
        simp only [hd]

end Sys2Proof.Machine
end

