-- ==== Sys2Proof/Laws/PerInstr.lean ====
section
/-! SUPPORT. Statements made per instruction. Family `TableRow`: the encoded word of a well-formed
instruction matches its row of spec/opcode_table.json under the row's mask. -/

namespace Sys2Proof.Laws.TableRow

/-- The word of `i` has the fixed bits of its row (`mask`, `match` of spec/opcode_table.json). -/
def Statement : Instr → Prop
  | .loadKey klen mode keyBits =>
    (Instr.loadKey klen mode keyBits).wf = true →
      encode (.loadKey klen mode keyBits) &&& 0xFFC00000#32 = 0x10000000#32
  | .keystream =>
    Instr.keystream.wf = true → encode .keystream &&& 0xFFFFFFFF#32 = 0x20000000#32

theorem loadKey (klen mode keyBits : Nat) : Statement (.loadKey klen mode keyBits) := by
  intro _
  ext i hi
  simp only [encode, BitVec.getElem_and, BitVec.getElem_append]
  interval_cases i <;> simp

theorem keystream : Statement .keystream := fun _ => by decide

end Sys2Proof.Laws.TableRow
end

