-- ==== Sys2Proof/Tests/Slice0.lean ====
section
/-! SUPPORT. The model's own tests. Expected values are those of spec/95_test_vectors.md (the part is
named at each test) or worked out from the rule named; the stub tables are its appendix A. Then one
witness for the hypotheses of each statement of Obligations.lean that has some. -/

namespace Sys2Proof.Tests

open Sys2Proof.Machine

/-! ## Helpers -/

/-- Four tables from a function of table number and index. -/
def tables (f : Nat → Nat → Word) : SBox := Vector.ofFn fun j => Vector.ofFn fun b => f j.val b.val

/-- The stub tables of appendix A. -/
def zeroTables : SBox := tables fun _ _ => 0
@[inherit_doc zeroTables] def idTables : SBox := tables fun j b => BitVec.ofNat 32 b <<< (8 * j)
@[inherit_doc zeroTables] def swapTables : SBox :=
  tables fun j b => BitVec.ofNat 32 (b ^^^ 0x5A) <<< (8 * (3 - j))
@[inherit_doc zeroTables] def ovlTables : SBox :=
  tables fun j b => (BitVec.ofNat 32 b <<< (8 * j)) ||| (BitVec.ofNat 32 b <<< (8 * ((j + 1) % 4)))

/-- A cipher with the given first sixteen words, mirrored, and the derived registers 0. -/
def cipherOf (f : Nat → Word) (ptr : BitVec 4) (R1 R2 : Word) : Cipher :=
  ⟨Vector.ofFn fun i => f (i.val % 16), ptr, R1, R2, 0, 0, 0⟩

/-- Operand ports with the given key bytes. -/
def portsOf (f : Nat → Byte) (iv2 iv1 : Word) : Ports := ⟨Vector.ofFn fun i => f i.val, iv2, iv1⟩

/-- A consistent cipher under the tables ZERO: everything 0. -/
def zeroCipher : Cipher := cipherOf (fun _ => 0) 0 0 0

/-- A state with nothing pending, under the given tables. -/
def stateOf (sbox : SBox) (keyed : Bool) (cipher : Cipher) (ports : Ports) : State :=
  ⟨cipher, keyed, sbox, ports, [], [], 0⟩

/-- A keyed, consistent state. -/
def keyedState : State := stateOf zeroTables true zeroCipher (portsOf (fun _ => 0) 0 0)

/-- A state that is not keyed. -/
def freshState : State := stateOf zeroTables false zeroCipher (portsOf (fun _ => 0) 0 0)

/-- The next state of an outcome. -/
def nextOf : Host.Outcome State Fault Refusal → Option State
  | .next t => some t
  | .fault _ => none
  | .refused _ => none

/-- The responses after an outcome. -/
def responsesOf (o : Host.Outcome State Fault Refusal) : List Response :=
  match nextOf o with
  | some t => t.responses
  | none => []

/-- What a command word of a fresh state is answered (the host drives zero operands). -/
def answer (w : Word) : List Response :=
  responsesOf (step { freshState with inputs := [.command ⟨w, freshState.ports⟩] })

/-! ## Well-formedness: one ill-formed term for each check -/

theorem test_wf_refuses_wide_klen : (Instr.loadKey 64 64 128).wf = false := by decide
theorem test_wf_refuses_wide_mode : (Instr.loadKey 16 128 128).wf = false := by decide
theorem test_wf_refuses_wide_keyBits : (Instr.loadKey 16 64 512).wf = false := by decide

/-! ## Decoding: words written out bit by bit from 30_encoding.md R72 (95 part 2.1) -/

/-- OP 0001, ZERO, KLEN 24, MODE 64, KEY_BITS 192: the word 101880C0. -/
theorem test_decode_loadKey :
    decode 0b0001_000000_011000_1000000_011000000#32 = .ok (.loadKey 24 64 192) := rfl

/-- OP 0010, ZERO 28 times. -/
theorem test_decode_keystream :
    decode 0b0010_0000000000000000000000000000#32 = .ok .keystream := rfl

/-- KLEN 63 (95: 103F4100), and MODE 48 (95: 10106080). -/
theorem test_decode_other_fields : decode 0x103F4100#32 = .ok (.loadKey 63 32 256)
    ∧ decode 0x10106080#32 = .ok (.loadKey 16 48 128) := ⟨rfl, rfl⟩

/-- The illegal words of 95 part 2.1. -/
theorem test_decode_illegal : decode 0x10508080#32 = .error .zeroBitSet
    ∧ decode 0x10400005#32 = .error .zeroBitSet ∧ decode 0x20000001#32 = .error .zeroBitSet
    ∧ decode 0x00000000#32 = .error .reservedOp ∧ decode 0x30000000#32 = .error .reservedOp
    ∧ decode 0xFFFFFFFF#32 = .error .reservedOp := ⟨rfl, rfl, rfl, rfl, rfl, rfl⟩

/-- The two rows of spec/opcode_table.json, and the same words as the first act after reset. -/
theorem test_table_words : decodeTableWord 32 0x10000000 = some (.loadKey 0 0 0)
    ∧ decodeTableWord 32 0x20000000 = some .keystream
    ∧ responsesOf (step (State.reset.withFetchWord 32 0x10000000)) = [.error .invalidKeySize]
    ∧ responsesOf (step (State.reset.withFetchWord 32 0x20000000)) = [.error .notKeyed] :=
  ⟨rfl, rfl, rfl, rfl⟩

/-! ## Responses from the reset state (95 part 2.1) -/

theorem test_answers : answer 0x101880C0#32 = [.error .invalidKeySize]
    ∧ answer 0x10106080#32 = [.error .invalidMode] ∧ answer 0x10200100#32 = [.error .invalidMode]
    ∧ answer 0x10000000#32 = [.error .invalidKeySize] ∧ answer 0x10000080#32 = [.error .invalidMode]
    ∧ answer 0x10008080#32 = [.error .keyTooShort] ∧ answer 0x101F8100#32 = [.error .keyTooShort]
    ∧ answer 0x10400005#32 = [.error .illegalCommand] ∧ answer 0x20000000#32 = [.error .notKeyed] := by
  decide +kernel

/-- A failed load ends the session and an illegal word does not (95 part 2.9). -/
theorem test_keyed_after_errors :
    (nextOf (step { keyedState with inputs := [.command ⟨0x10200100#32, keyedState.ports⟩] })).map
        State.keyed = some false
    ∧ (nextOf (step { keyedState with inputs := [.command ⟨0x30000000#32, keyedState.ports⟩] })).map
        State.keyed = some true := by
  decide +kernel

/-! ## Word functions (95 parts 2.2 to 2.4) -/

/-- The bits of f(x) below x^32 (40_lfsr_gf232.md R90). -/
theorem test_fpoly : FPOLY.toNat = 2 ^ 29 + 2 ^ 20 + 2 ^ 15 + 2 ^ 10 + 2 + 1 := by decide

theorem test_alpha : alpha 0x80000001#32 = 0x20108401#32 ∧ alpha 0xDEADBEEF#32 = 0x9D4BF9DD#32
    ∧ alpha 0x90084201#32 = 0x00000001#32 ∧ alpha 0x7FFFFFFF#32 = 0xFFFFFFFE#32 := by decide

theorem test_rotl32 : rotl32 0xDEADBEEF#32 7 = 0x56DF77EF#32
    ∧ rotr32 0x12345678#32 7 = 0xF02468AC#32 := by decide

theorem test_sfn_bytes_to_tables : sfn swapTables 0x01020304#32 = 0x5E59585B#32 := by decide +kernel

theorem test_sfn_joins_by_or : sfn ovlTables 0x01020304#32 = 0x03030705#32 := by decide +kernel

theorem test_keyWord : keyWord (portsOf (fun i => BitVec.ofNat 8 (i + 1)) 0 0).key 1
    = 0x05060708#32 := by decide +kernel

/-! ## Micro-operations (95 part 2.5, vectors V1 and V2) -/

/-- V1 after `UPDATE_INTERNALS` under ID. -/
def v1 : Cipher :=
  (cipherOf (fun i => BitVec.ofNat 32 (i + 1)) 3 0x01020304#32 0x000000FF#32).updateInternals idTables

theorem test_updateInternals : (v1.fsm_out, v1.next_r1, v1.next_r2, v1.keystreamWord)
    = (0x010203F6#32, 0x80007984#32, 0x01020304#32, 0x010203F2#32) := by decide +kernel

theorem test_clock : (v1.clock.L[3], v1.clock.L[19], v1.clock.ptr, v1.clock.R1, v1.clock.fsm_out)
    = (0x0000001C#32, 0x0000001C#32, 2#4, 0x80007984#32, 0x010203F6#32) := by decide +kernel

theorem test_feedbackClock : (v1.feedbackClock.L[3], v1.feedbackClock.L[19])
    = (0x020407F0#32, 0x020407F0#32) := by decide +kernel

/-- V2: dropped carries and the pointer wrap. -/
def v2 : Cipher :=
  (cipherOf (fun i => 0x11111111#32 * BitVec.ofNat 32 i) 0 0xFFFFFFFF#32 0x80000000#32).updateInternals
    idTables

theorem test_pointer_wrap : (v2.fsm_out, v2.next_r1, v2.clock.L[0], v2.clock.L[16], v2.clock.ptr)
    = (0x91111110#32, 0x777777F7#32, 0x7545D157#32, 0x7545D157#32, 15#4) := by decide +kernel

/-! ## LOAD_KEY and KEYSTREAM -/

/-- The key bytes of S1 (80 00 ... 00), and the operands of S4 and S6 (AA ..., IV words). -/
def portsS1 : Ports := portsOf (fun i => if i = 0 then 0x80 else 0) 0 0
@[inherit_doc portsS1] def portsS6 : Ports := portsOf (fun _ => 0xAA) 0x10203040#32 0xABCDEF01#32

/-- S4 of 95 part 2.6: 128-bit key with IV; the copies are made before the IV. -/
theorem test_setup_iv :
    ((zeroCipher.setup .k128 .iv portsS6).L[0], (zeroCipher.setup .k128 .iv portsS6).L[3],
      (zeroCipher.setup .k128 .iv portsS6).L[4], (zeroCipher.setup .k128 .iv portsS6).L[8],
      (zeroCipher.setup .k128 .iv portsS6).L[19])
    = (0x016745AB#32, 0xBA8A9AEA#32, 0x55555555#32, 0xAAAAAAAA#32, 0xBA8A9AEA#32) := by
  decide +kernel

/-- S6 of 95 part 2.6: 256-bit key with IV; the first feedback. -/
theorem test_first_feedback : (((zeroCipher.setup .k256 .iv portsS6).updateInternals
      idTables).feedbackClock.L[31], (zeroCipher.setup .k256 .iv portsS6).L[11])
    = (0x778B5A01#32, 0x55555555#32) := by decide +kernel

/-- What a load from a fresh state under the given tables leaves: `R1`, `R2`, `fsm_out`, `L[8]`, the
next keystream word. -/
def loaded (sbox : SBox) (i : Instr) (p : Ports) : Option (Word × Word × Word × Word × Word) :=
  (nextOf (exec i (stateOf sbox false zeroCipher p))).map fun t =>
    (t.cipher.R1, t.cipher.R2, t.cipher.fsm_out, t.cipher.L[8], t.cipher.keystreamWord)

/-- S1 under ID, standard mode (95 parts 2.7, 2.8). -/
theorem test_load_S1 : loaded idTables (.loadKey 16 64 128) portsS1
    = some (0x5F17B6FC#32, 0xD288A607#32, 0xFF81C14E#32, 0x4F4841B3#32, 0x091C46C5#32) := by
  decide +kernel

/-- S6 under SWAP, IV mode (95 parts 2.7, 2.8). -/
theorem test_load_S6 : loaded swapTables (.loadKey 32 32 256) portsS6
    = some (0xFC561406#32, 0x21D88FE1#32, 0xA528035E#32, 0x12C04E12#32, 0x13CA5757#32) := by
  decide +kernel

/-- `KEYSTREAM` on V1: the word read before the clock, then the clock and the re-primed registers. -/
theorem test_keystream_V1 :
    (nextOf (exec .keystream (stateOf idTables true v1 portsS1))).map (fun t =>
      (t.responses, t.cipher.L[3], t.cipher.ptr, t.cipher.fsm_out, t.cipher.next_r1, t.cipher.next_r2))
    = some ([.word 0x010203F2#32], 0x0000001C#32, 2#4, 0x81027AA4#32, 0x823EADC5#32,
        0x80007984#32) := by
  decide +kernel

/-! ## The assembler (30_encoding.md R80, R81; 95 part 3) -/

/-- Line 1 of P2, with a comment: one command, its word, lane 0, and the omitted IV 0. -/
theorem test_assemble_load :
    (assemble ("LOAD_KEY key=80000000000000000000000000000000, key_bits=128, ".toList
      ++ "mode=STANDARD_MODE, iv2=DEADBEEF # P2".toList)).map
        (List.map fun c => (c.cmd, c.ports.key[0], c.ports.iv2, c.ports.iv1))
    = some [(0x10108080#32, 0x80#8, 0xDEADBEEF#32, 0#32)] := by
  decide +kernel

/-- `KEYSTREAM 3` after an empty line. -/
theorem test_assemble_keystream :
    (assemble "\nKEYSTREAM 3".toList).map (List.map Command.cmd)
    = some [0x20000000#32, 0x20000000#32, 0x20000000#32] := by
  decide +kernel

/-! ## Witnesses: states and operands that meet the hypotheses of the statements -/

/-- The acts of the host used below. -/
def keystreamEvent : HostEvent := .command ⟨0x20000000#32, portsS1⟩
@[inherit_doc keystreamEvent] def loadEvent : HostEvent := .command ⟨0x10108080#32, portsS1⟩
@[inherit_doc keystreamEvent] def badLoadEvent : HostEvent := .command ⟨0x100F8080#32, portsS1⟩
@[inherit_doc keystreamEvent] def illegalEvent : HostEvent := .command ⟨0x30000000#32, portsS1⟩

theorem keystreamEvent_isKeystream : keystreamEvent.IsKeystream := ⟨_, rfl, rfl⟩

theorem loadEvent_isLegalLoad : loadEvent.IsLegalLoad :=
  ⟨_, 16, 64, 128, rfl, rfl, by decide⟩

theorem badLoadEvent_not_legal : ¬ badLoadEvent.IsLegalLoad := by
  rintro ⟨c, klen, mode, keyBits, h, hd, legal⟩
  cases h
  have : (Except.ok (.loadKey 15 64 128) : Except Illegal Instr) = .ok (.loadKey klen mode keyBits) :=
    hd
  cases this
  revert legal
  decide

theorem keystreamEvent_not_legal : ¬ keystreamEvent.IsLegalLoad := by
  rintro ⟨c, klen, mode, keyBits, h, hd, -⟩
  cases h
  have : (Except.ok .keystream : Except Illegal Instr) = .ok (.loadKey klen mode keyBits) := hd
  cases this

/-- DecodeOfEncodeIsTheInstruction, at the ends of the ranges. -/
theorem witness_wf : (Instr.loadKey 63 127 511).wf = true ∧ (Instr.loadKey 0 0 0).wf = true
    ∧ Instr.keystream.wf = true := by decide

/-- DecodingFollowsTheProcedure: its five clauses, at boundary words. -/
theorem witness_decoding_clauses :
    ((0x10400000#32).toNat / 2 ^ 28 = 1 ∧ (0x10400000#32).toNat / 2 ^ 22 % 64 ≠ 0)
    ∧ ((0x103FFFFF#32).toNat / 2 ^ 28 = 1 ∧ (0x103FFFFF#32).toNat / 2 ^ 22 % 64 = 0)
    ∧ ((0x20000001#32).toNat / 2 ^ 28 = 2 ∧ (0x20000001#32).toNat % 2 ^ 28 ≠ 0)
    ∧ ((0x20000000#32).toNat / 2 ^ 28 = 2 ∧ (0x20000000#32).toNat % 2 ^ 28 = 0)
    ∧ ((0x0FFFFFFF#32).toNat / 2 ^ 28 ≠ 1 ∧ (0x30000000#32).toNat / 2 ^ 28 ≠ 2) := by decide

/-- StepRunsTheDecodedCommand, EncodeOfDecodeIsTheWord, OneResponsePerCommand: a pending command that
decodes. -/
theorem witness_pending_command :
    ({ keyedState with inputs := [keystreamEvent] } : State).inputs
      = [.command ⟨0x20000000#32, portsS1⟩] ∧ decode 0x20000000#32 = .ok .keystream := ⟨rfl, rfl⟩

/-- IllegalCommandChangesNoState. -/
theorem witness_pending_illegal :
    ({ keyedState with inputs := [illegalEvent] } : State).inputs
      = [.command ⟨0x30000000#32, portsS1⟩] ∧ decode 0x30000000#32 = .error .reservedOp := ⟨rfl, rfl⟩

/-- ResetClearsKeyedWithoutResponse and IdleStepHoldsTheState. -/
theorem witness_pending_reset_or_idle :
    ({ keyedState with inputs := [.reset] } : State).inputs = [.reset] ∧ keyedState.inputs = [] :=
  ⟨rfl, rfl⟩

/-- The statements about a legal load: both sizes, both modes, the least and the greatest `KLEN`. -/
theorem witness_legal_load : LegalLoad 16 64 128 ∧ LegalLoad 63 32 128 ∧ LegalLoad 32 64 256
    ∧ LegalLoad 63 32 256 := by decide

/-- LoadKeyReportsTheFirstFailedCheck: its three cases, next to the legal values (95 part 2.1; R155,
R157, R158). -/
theorem witness_failed_checks : (127 ≠ 128 ∧ 127 ≠ 256) ∧ (257 ≠ 128 ∧ 257 ≠ 256)
    ∧ ((128 = 128 ∨ 128 = 256) ∧ 63 ≠ 64 ∧ 63 ≠ 32) ∧ ((256 = 128 ∨ 256 = 256) ∧ 33 ≠ 64 ∧ 33 ≠ 32)
    ∧ 15 < 128 / 8 ∧ 31 < 256 / 8 := by decide

/-- KeyBytesAreBigEndian, at the last word of each key size. -/
theorem witness_last_key_words : 3 < KeySize.k128.words ∧ 7 < KeySize.k256.words := by decide

/-- LoadKeyForgetsThePriorState and UnkeyedCipherIsUnobservable: different states with common tables,
ports and acts. -/
theorem witness_different_states :
    freshState.sbox = (stateOf zeroTables false v2 freshState.ports).sbox
    ∧ freshState.ports = (stateOf zeroTables false v2 freshState.ports).ports
    ∧ freshState.inputs = (stateOf zeroTables false v2 freshState.ports).inputs
    ∧ freshState.keyed = false ∧ (stateOf zeroTables false v2 freshState.ports).keyed = false
    ∧ freshState.cipher ≠ (stateOf zeroTables false v2 freshState.ports).cipher := by
  refine ⟨rfl, rfl, rfl, rfl, rfl, fun h => absurd (congrArg Cipher.R2 h) (by decide)⟩

/-- KeyBytesBeyondTheKeyAreIgnored: two key ports that agree on lanes 0 to 15 and differ above. -/
theorem witness_long_key :
    (∀ (i : Nat) (h : i < 32), i < 128 / 8 →
      (portsOf (fun i => if i < 16 then 7 else 9) 0 0).key[i] = (portsOf (fun _ => 7) 0 0).key[i])
    ∧ (portsOf (fun i => if i < 16 then 7 else 9) 0 0).key[16]
      ≠ (portsOf (fun _ => 7) 0 0).key[16] := by
  constructor
  · intro i h hi
    simp [portsOf, show i < 16 by omega]
  · decide +kernel

theorem keyedState_inv : keyedState.Inv := by
  intro _
  decide +kernel

/-- KeystreamIsTheReducedSequence, EachKeystreamReplacesOneSlot, StepKeepsTheInvariant: a consistent
keyed state with two KEYSTREAM commands pending. -/
theorem witness_keystream_run :
    ∃ s : State, s.keyed = true ∧ s.Inv ∧ s.inputs = [keystreamEvent, keystreamEvent] ++ [.reset]
      ∧ (∀ e ∈ [keystreamEvent, keystreamEvent], e.IsKeystream) ∧ ∃ t, step s = .next t :=
  ⟨{ keyedState with inputs := [keystreamEvent, keystreamEvent, .reset] }, rfl, keyedState_inv, rfl,
    by simp [keystreamEvent_isKeystream], _, rfl⟩

/-- EachKeystreamReplacesOneSlot, last clause: with `ptr = 0` two commands reach slots 0 and 15, and not
14, the slot next to come. -/
theorem witness_slots_of_two_commands : keyedState.cipher.ptr = 0
    ∧ (∀ k < 2, 14 % 16 ≠ (0 + 15 * k) % 16) ∧ 0 % 16 = (0 + 15 * 0) % 16
    ∧ 31 % 16 = (0 + 15 * 1) % 16 := by decide

/-- EarlierOperandsAndResponsesAreForgotten, clause on the cipher elements: an act that is neither a
reset nor a failing load, be it a `KEYSTREAM` or a legal `LOAD_KEY` with the least `KLEN`. -/
theorem witness_act_that_specifies_the_cipher (e : HostEvent) (h : e = keystreamEvent ∨ e = loadEvent) :
    (∀ rest, ({ keyedState with inputs := [e] } : State).inputs ≠ .reset :: rest)
    ∧ ∀ c rest klen mode keyBits,
        ({ keyedState with inputs := [e] } : State).inputs = .command c :: rest →
          decode c.cmd = .ok (.loadKey klen mode keyBits) → LegalLoad klen mode keyBits := by
  rcases h with rfl | rfl
  · refine ⟨fun _ h => (by cases h), fun c rest klen mode keyBits h hd => ?_⟩
    cases h
    have : (Except.ok .keystream : Except Illegal Instr) = .ok (.loadKey klen mode keyBits) := hd
    cases this
  · refine ⟨fun _ h => (by cases h), fun c rest klen mode keyBits h hd => ?_⟩
    cases h
    have : (Except.ok (.loadKey 16 64 128) : Except Illegal Instr)
      = .ok (.loadKey klen mode keyBits) := hd
    cases this
    decide

/-- KeystreamTransition: both of its cases, and CommandsRunTheirMicroPrograms, its second clause. -/
theorem witness_keyed_and_not : keyedState.keyed = true ∧ freshState.keyed = false := ⟨rfl, rfl⟩

/-- AlphaIsShiftAndConditionalXor: both of its cases, where they meet. -/
theorem witness_top_bits : (0x7FFFFFFF#32).getLsbD 31 = false
    ∧ (0x80000000#32).getLsbD 31 = true := by decide

/-- The statements about consistent ciphers, with the pointer at 0, where it wraps:
LfsrStepShiftsTheStages, PairsAreTheReducedMap, SixteenWordRingReadsTheSame,
ReducedStateDeterminesTheCipher, ClocksStepAndCommit, UpdateInternalsDerives. -/
theorem witness_consistent_cipher : zeroCipher.InvAlias ∧ zeroCipher.InvDerived zeroTables
    ∧ zeroCipher.ptr = 0 ∧ zeroCipher.fsm_out = 0 ∧ zeroCipher.R1 = 0 ∧ zeroCipher.R2 = 0 := by
  decide +kernel

/-- SixteenLfsrStepsWriteEverySlotOnce, first clause: two ciphers that differ in an FSM register only. -/
theorem witness_same_buffer : zeroCipher.L = (zeroCipher.updateInternals idTables).commit.L
    ∧ zeroCipher.ptr = ({ zeroCipher with R1 := 1 } : Cipher).ptr
    ∧ zeroCipher ≠ { zeroCipher with R1 := 1 } :=
  ⟨rfl, rfl, fun h => absurd (congrArg Cipher.R1 h) (by decide)⟩

/-- SixteenLfsrStepsWriteEverySlotOnce: a sequence of steps, from a state with `ptr = 15`. -/
theorem witness_step_sequence :
    ∃ (d : Nat → Cipher) (inj : Nat → Word), (∀ k, d (k + 1) = (d k).lfsrStep (inj k))
      ∧ (d 0).InvAlias ∧ (d 0).ptr = 15 :=
  ⟨fun k => (fun c : Cipher => c.lfsrStep 0)^[k] (cipherOf (fun _ => 0) 15 0 0), fun _ => 0,
    fun k => Function.iterate_succ_apply' _ k _, by decide +kernel, rfl⟩

/-- KeyedFollowsLoadsAndResets: a step for each of its clauses. -/
theorem witness_keyed_changes :
    (∃ s t : State, step s = .next t ∧ s.keyed = false ∧ t.keyed = true
      ∧ s.inputs = [loadEvent] ∧ loadEvent.IsLegalLoad)
    ∧ (∃ s t : State, step s = .next t ∧ s.keyed = true ∧ t.keyed = false ∧ s.inputs = [.reset])
    ∧ (∃ s t : State, step s = .next t ∧ s.keyed = true ∧ t.keyed = false
      ∧ s.inputs = [badLoadEvent] ∧ decode 0x100F8080#32 = .ok (.loadKey 15 64 128)
      ∧ ¬ LegalLoad 15 64 128) :=
  ⟨⟨{ freshState with inputs := [loadEvent] }, _, rfl, rfl, rfl, rfl, loadEvent_isLegalLoad⟩,
    ⟨{ keyedState with inputs := [.reset] }, _, rfl, rfl, rfl, rfl⟩,
    ⟨{ keyedState with inputs := [badLoadEvent] }, _, rfl, rfl, rfl, rfl, rfl, by decide⟩⟩

/-- OnlyLoadKeystreamAndResetChangeTheCipher: a step that changes the cipher elements. -/
theorem witness_cipher_changes : ∃ s t : State, step s = .next t ∧ t.cipher ≠ s.cipher :=
  ⟨{ keyedState with inputs := [keystreamEvent] }, _, rfl, fun h =>
    absurd (congrArg Cipher.ptr h) (by decide)⟩

/-- SBoxIsNeverWritten: a run of one step. -/
theorem witness_run : ∃ t, State.after 1 { keyedState with inputs := [keystreamEvent] } = some t :=
  ⟨_, rfl⟩

/-- ReloadForgetsThePast: two different states given the same legal load. -/
theorem witness_reload : loadEvent.IsLegalLoad ∧ keyedState.sbox = freshState.sbox
    ∧ ({ keyedState with inputs := [loadEvent] } : State).inputs = loadEvent :: []
    ∧ ({ freshState with inputs := [loadEvent] } : State).inputs = loadEvent :: [] :=
  ⟨loadEvent_isLegalLoad, rfl, rfl, rfl⟩

/-- NoKeystreamWithoutALegalLoad: an unkeyed run of a KEYSTREAM and a failing load. -/
theorem witness_no_legal_load :
    ∃ s t : State, s.keyed = false ∧ s.inputs = [keystreamEvent, badLoadEvent]
      ∧ (∀ e ∈ s.inputs, ¬ e.IsLegalLoad) ∧ s.after 2 = some t :=
  ⟨{ freshState with inputs := [keystreamEvent, badLoadEvent] }, _, rfl, rfl,
    by simp [keystreamEvent_not_legal, badLoadEvent_not_legal], rfl⟩

/-- InstancesDoNotInterfere: two instances with the same tables. -/
theorem witness_two_instances :
    ([keyedState, freshState] : System)[1]? = some freshState
    ∧ System.sharesSBox [keyedState, freshState] zeroTables = true := by
  refine ⟨rfl, ?_⟩
  simp [System.sharesSBox, keyedState, freshState, stateOf]

/-- KeystreamPseudoCommandYieldsNResponses: the expansion is what a keyed, consistent state has
pending. -/
theorem witness_pseudo_command :
    ∃ cs, (AsmLine.keystream 2).commands = some cs
      ∧ ({ keyedState with inputs := cs.map .command } : State).inputs = cs.map .command
      ∧ ({ keyedState with inputs := cs.map .command } : State).keyed = true
      ∧ ({ keyedState with inputs := cs.map .command } : State).Inv :=
  ⟨_, rfl, rfl, rfl, keyedState_inv⟩

/-- LoadKeyLineEncodesItsOperands, at the widest fields. -/
theorem witness_asm_line : 511 < 512 ∧ 127 < 128 := by decide

end Sys2Proof.Tests
end

