-- ==== Sys2Proof/Proofs/KeyBytes.lean ====
section
/-! PROOF. The bytes of the parsed key words (20_memory.md R55). -/

namespace Sys2Proof.Machine

/-- Each bit of a key word comes from the lane that covers it, the first lane at the top
(20_memory.md R55). From bit 32 on both sides are `false`. -/
theorem keyWord_getLsbD (key : Vector Byte 32) (i : Fin 8) (b : Nat) :
    (keyWord key i).getLsbD b
      = if b < 8 then key[4 * i.val + 3].getLsbD b
        else if b < 16 then key[4 * i.val + 2].getLsbD (b - 8)
        else if b < 24 then key[4 * i.val + 1].getLsbD (b - 16)
        else key[4 * i.val].getLsbD (b - 24) := by
  simp only [keyWord, BitVec.getLsbD_or, BitVec.getLsbD_shiftLeft, BitVec.getLsbD_setWidth]
  split_ifs <;> grind

/-- The four bytes of a key word, most significant first, are its four lanes in order. -/
theorem keyWord_bytes (key : Vector Byte 32) (i : Fin 8) :
    (keyWord key i).extractLsb 31 24 = key[4 * i.val]
      ∧ (keyWord key i).extractLsb 23 16 = key[4 * i.val + 1]
      ∧ (keyWord key i).extractLsb 15 8 = key[4 * i.val + 2]
      ∧ (keyWord key i).extractLsb 7 0 = key[4 * i.val + 3] := by
  refine ⟨?_, ?_, ?_, ?_⟩
  all_goals
    refine BitVec.eq_of_getLsbD_eq fun b hb => ?_
    rw [BitVec.getLsbD_extractLsb, keyWord_getLsbD]
    simp (disch := omega) [hb, if_pos, if_neg]

/-- Every word after step 1: a key word below the key size, the old word from there on
(43_load_key.md R122). -/
theorem Cipher.parseKey_getElem (c : Cipher) (ks : KeySize) (key : Vector Byte 32) (i : Nat)
    (hi : i < 32) :
    (c.parseKey ks key).L[i]
      = if h : i < ks.words then keyWord key ⟨i, Nat.lt_of_lt_of_le h ks.words_le⟩ else c.L[i] := by
  simp [Cipher.parseKey, fillWords_getElem]

/-- Settles O13: word `i` after step 1 is key word `i`, whose bytes are its lanes. -/
theorem keyBytesAreBigEndian : Obligations.KeyBytesAreBigEndian := by
  intro c ks key i h hi
  rw [Cipher.parseKey_getElem, dif_pos hi]
  exact keyWord_bytes key ⟨i, h⟩

end Sys2Proof.Machine
end

