-- ==== Sys2Proof/Proofs/Decoding.lean ====
section
/-! PROOF. The decoder in terms of the command word as a number (30_encoding.md R72, R76), and the words
of the legal forms (R82). -/

namespace Sys2Proof

/-- `OP` is what is left of the word above its low 28 bits (30_encoding.md R72). -/
theorem opField_toNat (w : Word) : (opField w).toNat = w.toNat / 2 ^ 28 := by
  have := w.isLt
  simp only [opField, BitVec.extractLsb_toNat, Nat.shiftRight_eq_div_pow]
  omega

theorem opField_eq_iff (w : Word) (op : BitVec 4) :
    opField w = op ↔ w.toNat / 2 ^ 28 = op.toNat := by
  rw [← BitVec.toNat_inj, opField_toNat]

/-- A field `[hi:lo]` of the word is 0 when its quotient by `2 ^ lo`, cut to the field's width, is
(30_encoding.md R10, R72). -/
theorem field_eq_zero_iff (w : Word) (hi lo : Nat) :
    w.extractLsb hi lo = 0#(hi - lo + 1) ↔ w.toNat / 2 ^ lo % 2 ^ (hi - lo + 1) = 0 := by
  rw [← BitVec.toNat_inj, BitVec.extractLsb_toNat, Nat.shiftRight_eq_div_pow, BitVec.toNat_zero]

/-- The procedure of 30_encoding.md R76 with every field a number. -/
theorem decode_eq_arithmetic (w : Word) :
    decode w =
      if w.toNat / 2 ^ 28 = 1 then
        if w.toNat / 2 ^ 22 % 64 ≠ 0 then .error .zeroBitSet
        else .ok (.loadKey (w.toNat / 2 ^ 16 % 64) (w.toNat / 2 ^ 9 % 128) (w.toNat % 512))
      else if w.toNat / 2 ^ 28 = 2 then
        if w.toNat % 2 ^ 28 ≠ 0 then .error .zeroBitSet else .ok .keystream
      else .error .reservedOp := by
  have hzero := field_eq_zero_iff w 27 22
  have hlow := field_eq_zero_iff w 27 0
  simp [decode, opField_eq_iff, hzero, hlow, BitVec.extractLsb_toNat, Nat.shiftRight_eq_div_pow]

/-- Settles O4: each clause is one branch of the procedure on numbers. -/
theorem decodingFollowsTheProcedure : Obligations.DecodingFollowsTheProcedure := by
  intro w
  rw [decode_eq_arithmetic]
  refine ⟨fun hop hzero => ?_, fun hop hzero => ?_, fun hop hlow => ?_, fun hop hlow => ?_,
    fun hload hkey => ?_⟩
  · exact ⟨.zeroBitSet, by rw [if_pos hop, if_pos hzero]⟩
  · rw [if_pos hop, if_neg (not_not_intro hzero)]
  · exact ⟨.zeroBitSet, by rw [if_neg (by omega), if_pos hop, if_pos hlow]⟩
  · rw [if_neg (by omega), if_pos hop, if_neg (not_not_intro hlow)]
  · exact ⟨.reservedOp, by rw [if_neg hload, if_neg hkey]⟩

/-- Settles O1: the decoder and the encoder computed at the five words. -/
theorem legalFormsHaveTheWordsOfTheSpec : Obligations.LegalFormsHaveTheWordsOfTheSpec := by
  refine ⟨rfl, ?_, rfl, ?_, rfl, ?_, rfl, ?_, rfl, ?_⟩ <;> decide

end Sys2Proof
end

