-- ==== Sys2Proof/Proofs/Responses.lean ====
section
/-! PROOF. Every command is answered once, and by which kind of response (30_encoding.md R78). -/

namespace Sys2Proof.Machine

/-- No error has the code 0 of success (60_exceptions.md R150). -/
theorem ErrorKind.code_ne_zero (e : ErrorKind) : e.code ≠ 0#3 := by
  cases e <;> decide

/-- What 30_encoding.md R78 asks of the response `r` to a command word that decodes to `d`: a keystream
word exactly for a `KEYSTREAM` without error, and `Done` for a `LOAD_KEY` without error. -/
def Response.Answers (r : Response) (d : Except Illegal Instr) : Prop :=
  ((∃ w, r.rk = some w) ↔ (d = .ok .keystream ∧ r.err = 0))
    ∧ (r.err = 0 → ∀ klen mode keyBits, d = .ok (.loadKey klen mode keyBits) → r = .done)

/-- An error carries no word and is no success, so it may answer any command. -/
theorem Response.error_answers (e : ErrorKind) (d : Except Illegal Instr) :
    (Response.error e).Answers d := by
  simp [Response.Answers, Response.rk, Response.err, e.code_ne_zero]

theorem Response.done_answers_loadKey (klen mode keyBits : Nat) :
    Response.done.Answers (.ok (.loadKey klen mode keyBits)) := by
  simp [Response.Answers, Response.rk]

theorem Response.word_answers_keystream (rk : Word) :
    (Response.word rk).Answers (.ok .keystream) := by
  simp [Response.Answers, Response.rk, Response.err]

/-- A decoded command completes with one response of its kind and takes no further act of the host. -/
theorem exec_answers (i : Instr) (s : State) :
    ∃ t r, exec i s = .next t ∧ t.inputs = s.inputs ∧ t.responses = s.responses ++ [r]
      ∧ r.Answers (.ok i) := by
  cases i with
  | loadKey klen mode keyBits =>
    rcases execLoadKey_cases klen mode keyBits s with
      ⟨e, -, -, hexec⟩ | ⟨ks, m, -, -, -, hexec⟩
    · exact ⟨_, .error e, hexec, rfl, rfl, Response.error_answers e _⟩
    · exact ⟨_, .done, hexec, rfl, rfl, Response.done_answers_loadKey klen mode keyBits⟩
  | keystream =>
    cases hkeyed : s.keyed with
    | true =>
      exact ⟨_, .word s.cipher.keystreamWord, execKeystream_keyed s hkeyed, rfl, rfl,
        Response.word_answers_keystream _⟩
    | false =>
      exact ⟨_, .error .notKeyed, execKeystream_not_keyed s hkeyed, rfl, rfl,
        Response.error_answers _ _⟩

/-- Settles O10: an illegal word is answered by its error, any other command as `exec_answers` says. -/
theorem oneResponsePerCommand : Obligations.OneResponsePerCommand := by
  intro s c rest hin
  rcases step_cases s with ⟨h, -⟩ | ⟨_, h, -⟩ | ⟨c', rest', why, h, hd, hstep⟩
    | ⟨c', rest', i, h, hd, hstep⟩
  · simp [hin] at h
  · simp [hin] at h
  · obtain ⟨rfl, rfl⟩ : c = c' ∧ rest = rest' := by simpa [hin] using h
    exact ⟨_, .error .illegalCommand, hstep, rfl, rfl, Response.error_answers _ _⟩
  · obtain ⟨rfl, rfl⟩ : c = c' ∧ rest = rest' := by simpa [hin] using h
    obtain ⟨t, r, hexec, hinputs, hresponses, hanswers⟩ := exec_answers i (s.accept c rest)
    exact ⟨t, r, hstep.trans hexec, hinputs, hresponses, hd ▸ hanswers⟩

end Sys2Proof.Machine
end

