-- ==== Sys2Proof/Proofs/FieldAlpha.lean ====
section
/-! PROOF. Multiplication by α bit by bit, its linearity and its inverse (40_lfsr_gf232.md R91, R92). -/

namespace Sys2Proof.Machine

/-- With bit 31 clear, α only shifts (40_lfsr_gf232.md R91). -/
theorem alpha_of_bit31_clear {w : Word} (h : w.getLsbD 31 = false) : alpha w = w <<< 1 :=
  if_pos h

/-- With bit 31 set, the bit that leaves the word comes back as f(x) (40_lfsr_gf232.md R91). -/
theorem alpha_of_bit31_set {w : Word} (h : w.getLsbD 31 = true) :
    alpha w = (w <<< 1) ^^^ FPOLY :=
  if_neg (by simp [h])

/-- Each bit of α·w: the bit below it, and bit 31 of `w` where f(x) has a term. -/
theorem alpha_getLsbD (w : Word) {i : Nat} (hi : i < 32) :
    (alpha w).getLsbD i
      = ((decide (0 < i) && w.getLsbD (i - 1)) ^^ (w.getLsbD 31 && FPOLY.getLsbD i)) := by
  have hpos : (!decide (i < 1)) = decide (0 < i) := by simp [Nat.pos_iff_ne_zero]
  cases h : w.getLsbD 31 with
  | false => simp only [alpha_of_bit31_clear h, BitVec.getLsbD_shiftLeft, hi, hpos, decide_true,
      Bool.true_and, Bool.false_and, Bool.xor_false]
  | true => simp only [alpha_of_bit31_set h, BitVec.getLsbD_xor, BitVec.getLsbD_shiftLeft, hi, hpos,
      decide_true, Bool.true_and]

/-- f(x) has the term 1, so bit 0 of α·w tells whether f(x) was added (40_lfsr_gf232.md R92). -/
theorem alpha_getLsbD_zero (w : Word) : (alpha w).getLsbD 0 = w.getLsbD 31 := by
  have hterm : FPOLY.getLsbD 0 = true := rfl
  rw [alpha_getLsbD w (by omega), hterm]
  simp

theorem alphaInv_of_bit0_clear {v : Word} (h : v.getLsbD 0 = false) : alphaInv v = v >>> 1 :=
  if_neg (h ▸ Bool.false_ne_true)

theorem alphaInv_of_bit0_set {v : Word} (h : v.getLsbD 0 = true) :
    alphaInv v = ((v ^^^ FPOLY) >>> 1) ||| 0x80000000#32 :=
  if_pos h

/-- Bit 31 of the inverse is bit 0 of the argument (40_lfsr_gf232.md R92). -/
theorem alphaInv_getLsbD_top (v : Word) : (alphaInv v).getLsbD 31 = v.getLsbD 0 := by
  cases h : v.getLsbD 0 with
  | false => simp [alphaInv_of_bit0_clear h]
  | true => simp [alphaInv_of_bit0_set h]

/-- Below the top, each bit of the inverse is the bit above it, with f(x) taken off again. -/
theorem alphaInv_getLsbD (v : Word) {i : Nat} (hi : i < 31) :
    (alphaInv v).getLsbD i
      = (v.getLsbD (i + 1) ^^ (v.getLsbD 0 && FPOLY.getLsbD (i + 1))) := by
  cases h : v.getLsbD 0 with
  | false => simp only [alphaInv_of_bit0_clear h, BitVec.getLsbD_ushiftRight, Nat.add_comm 1,
      Bool.false_and, Bool.xor_false]
  | true =>
    have hlow : (0x80000000#32).getLsbD i = false := by
      revert i
      decide
    simp only [alphaInv_of_bit0_set h, BitVec.getLsbD_or, BitVec.getLsbD_ushiftRight,
      BitVec.getLsbD_xor, hlow, Nat.add_comm 1, Bool.true_and, Bool.or_false]

theorem alpha_xor (a b : Word) : alpha (a ^^^ b) = alpha a ^^^ alpha b := by
  refine BitVec.eq_of_getLsbD_eq fun i hi => ?_
  simp only [BitVec.getLsbD_xor, alpha_getLsbD _ hi, Bool.and_xor_distrib_left,
    Bool.and_xor_distrib_right, Bool.xor_assoc, Bool.xor_left_comm]

theorem alphaInv_alpha (w : Word) : alphaInv (alpha w) = w := by
  refine BitVec.eq_of_getLsbD_eq fun i hi => ?_
  by_cases htop : i = 31
  · rw [htop, alphaInv_getLsbD_top, alpha_getLsbD_zero]
  · rw [alphaInv_getLsbD _ (by omega), alpha_getLsbD_zero, alpha_getLsbD w (by omega)]
    simp

theorem alpha_alphaInv (v : Word) : alpha (alphaInv v) = v := by
  refine BitVec.eq_of_getLsbD_eq fun i hi => ?_
  cases i with
  | zero => rw [alpha_getLsbD_zero, alphaInv_getLsbD_top]
  | succ i =>
    rw [alpha_getLsbD _ hi, alphaInv_getLsbD_top, Nat.add_sub_cancel,
      alphaInv_getLsbD v (by omega)]
    simp

/-- Settles O24: linearity, bit 0, and the inverse on both sides. -/
theorem alphaIsALinearBijection : Obligations.AlphaIsALinearBijection :=
  ⟨alpha_xor, alpha_getLsbD_zero, alphaInv_alpha, alpha_alphaInv⟩

/-- Settles O23: the two branches for every word, and the five corner cases computed. -/
theorem alphaIsShiftAndConditionalXor : Obligations.AlphaIsShiftAndConditionalXor :=
  ⟨fun _ => alpha_of_bit31_clear, fun _ => alpha_of_bit31_set, by decide⟩

end Sys2Proof.Machine
end

