-- ==== Sys2Proof/Proofs/LfsrStep.lean ====
section
/-! PROOF. One LFSR step on the buffer and the pointer (40_lfsr_gf232.md R96 to R98), and sequences of
them (R99). -/

namespace Sys2Proof.Machine

/-- The feedback with its three taps written out (40_lfsr_gf232.md R94, R95). -/
theorem Cipher.feedback_eq_alpha (c : Cipher) (inj : Word) :
    c.feedback inj = alpha (c.stage 7 ^^^ c.stage 13 ^^^ c.stage 16 ^^^ inj) := rfl

/-- The buffer words of one slot are those with its number modulo 16 (10_state.md R22). -/
theorem mem_slot_iff_mod {i : Nat} (hi : i < 32) (p : BitVec 4) :
    (i = p.toNat ∨ i = p.toNat + 16) ↔ i % 16 = p.toNat := by
  have := p.isLt
  omega

/-- Every word after a step, by its slot (40_lfsr_gf232.md R96). -/
theorem Cipher.lfsrStep_getElem (c : Cipher) (inj : Word) {i : Nat} (hi : i < 32) :
    (c.lfsrStep inj).L[i] = if i % 16 = c.ptr.toNat then c.feedback inj else c.L[i] := by
  simp only [Cipher.lfsrStep_L, Cipher.writeSlot_getElem, mem_slot_iff_mod hi]

theorem Cipher.lfsrStep_ptr_toNat (c : Cipher) (inj : Word) :
    (c.lfsrStep inj).ptr.toNat = (c.ptr.toNat + 15) % 16 :=
  stepPtr_toNat c.ptr

/-- `INV_ALIAS` for any two words of one slot (10_state.md R22). -/
theorem Cipher.InvAlias.getElem_eq {c : Cipher} (h : c.InvAlias) {i j : Nat} (hi : i < 32)
    (hj : j < 32) (hij : i % 16 = j % 16) : c.L[i] = c.L[j] := by
  have low : ∀ (k : Nat) (hk : k < 32), c.L[k] = c.L[k % 16] := fun k hk => by
    by_cases hk16 : k < 16
    · simp only [Nat.mod_eq_of_lt hk16]
    · have hslot := h ⟨k % 16, by omega⟩
      simp only [show k % 16 + 16 = k by omega] at hslot
      exact hslot.symm
  rw [low i hi, low j hj]
  simp only [hij]

/-- A step writes both aliases alike, so they still agree (40_lfsr_gf232.md R99). -/
theorem Cipher.InvAlias.lfsrStep {c : Cipher} (h : c.InvAlias) (inj : Word) :
    (c.lfsrStep inj).InvAlias := fun i => by
  rw [Cipher.lfsrStep_getElem c inj (by omega), Cipher.lfsrStep_getElem c inj (by omega),
    Nat.add_mod_right, h i]

/-- The word written last is the first stage of the new pointer (40_lfsr_gf232.md R98). -/
theorem Cipher.lfsrStep_stage_one (c : Cipher) (inj : Word) :
    (c.lfsrStep inj).stage 1 = c.feedback inj := by
  have hptr := c.lfsrStep_ptr_toNat inj
  have hp := c.ptr.isLt
  rw [Cipher.stage, Cipher.lfsrStep_getElem, if_pos]
  rw [hptr, Fin.val_one]
  omega

/-- Where the aliases agree, each stage but the last moves on by one (40_lfsr_gf232.md R98). -/
theorem Cipher.InvAlias.lfsrStep_stage_succ {c : Cipher} (h : c.InvAlias) (inj : Word) (k : Fin 17)
    (hpos : 1 ≤ k.val) (hk : k.val ≤ 15) :
    (c.lfsrStep inj).stage ⟨k.val + 1, by omega⟩ = c.stage k := by
  have hptr := c.lfsrStep_ptr_toNat inj
  have hp := c.ptr.isLt
  have hslot : ((c.lfsrStep inj).ptr.toNat + (k.val + 1)) % 16 = (c.ptr.toNat + k.val) % 16 := by
    omega
  have hfresh : ((c.lfsrStep inj).ptr.toNat + (k.val + 1)) % 16 ≠ c.ptr.toNat := by
    omega
  rw [Cipher.stage, Cipher.lfsrStep_getElem, if_neg hfresh]
  exact h.getElem_eq _ _ hslot

/-- Settles O28: the words, the pointer and the frame of one step, and the shift of the stages. -/
theorem lfsrStepShiftsTheStages : Obligations.LfsrStepShiftsTheStages := by
  intro c inj
  rw [← Cipher.feedback_eq_alpha]
  refine ⟨fun i h => c.writeSlot_getElem (c.feedback inj) i h, ?_, rfl, rfl, rfl, rfl, rfl,
    fun halias => ⟨c.lfsrStep_stage_one inj, halias.lfsrStep_stage_succ inj⟩⟩
  have hp := c.ptr.isLt
  rw [Cipher.lfsrStep_ptr_toNat]
  split <;> omega

/-- What a step does to the buffer and the pointer depends on these two and the injection only
(40_lfsr_gf232.md R99). -/
theorem Cipher.lfsrStep_congr {c c' : Cipher} (inj : Word) (hL : c.L = c'.L)
    (hptr : c.ptr = c'.ptr) :
    (c.lfsrStep inj).L = (c'.lfsrStep inj).L ∧ (c.lfsrStep inj).ptr = (c'.lfsrStep inj).ptr := by
  obtain ⟨L, ptr⟩ := c
  obtain ⟨L', ptr'⟩ := c'
  obtain rfl : L = L' := hL
  obtain rfl : ptr = ptr' := hptr
  exact ⟨rfl, rfl⟩

section Sequence

variable {d : Nat → Cipher} {inj : Nat → Word} (hd : ∀ k, d (k + 1) = (d k).lfsrStep (inj k))
include hd

theorem lfsrSteps_keep_invAlias (h : (d 0).InvAlias) (k : Nat) : (d k).InvAlias := by
  induction k with
  | zero => exact h
  | succ k ih => exact hd k ▸ ih.lfsrStep (inj k)

theorem lfsrSteps_keep_fsm (k : Nat) :
    (d k).R1 = (d 0).R1 ∧ (d k).R2 = (d 0).R2 ∧ (d k).next_r1 = (d 0).next_r1
      ∧ (d k).next_r2 = (d 0).next_r2 ∧ (d k).fsm_out = (d 0).fsm_out := by
  induction k with
  | zero => exact ⟨rfl, rfl, rfl, rfl, rfl⟩
  | succ k ih => simpa only [hd, Cipher.lfsrStep_R1, Cipher.lfsrStep_R2, Cipher.lfsrStep_next_r1,
      Cipher.lfsrStep_next_r2, Cipher.lfsrStep_fsm_out] using ih

/-- `m` steps lower the pointer by `m` modulo 16 (40_lfsr_gf232.md R97). -/
theorem lfsrSteps_ptr (n m : Nat) :
    (d (n + m)).ptr.toNat = ((d n).ptr.toNat + 15 * m) % 16 := by
  induction m with
  | zero => exact (Nat.mod_eq_of_lt (d n).ptr.isLt).symm
  | succ m ih =>
    rw [← Nat.add_assoc, hd, Cipher.lfsrStep_ptr_toNat, ih]
    omega

/-- Of any 16 consecutive steps exactly one is at slot `j` (40_lfsr_gf232.md R99): the one whose
distance from the first is that of the pointer above `j`, modulo 16. -/
theorem lfsrSteps_reach_slot_once (n j : Nat) (hj : j < 16) :
    ∃ k, n ≤ k ∧ k < n + 16 ∧ (d k).ptr.toNat = j
      ∧ ∀ k', n ≤ k' → k' < n + 16 → (d k').ptr.toNat = j → k' = k := by
  refine ⟨n + ((d n).ptr.toNat + 16 - j) % 16, by omega, by omega, ?_, fun k' hge hlt hk' => ?_⟩
  · rw [lfsrSteps_ptr hd]
    omega
  · obtain ⟨m, rfl⟩ := Nat.exists_eq_add_of_le hge
    rw [lfsrSteps_ptr hd] at hk'
    omega

end Sequence

/-- Settles O29: what one step reads and writes, and the pointer along a sequence of them. -/
theorem sixteenLfsrStepsWriteEverySlotOnce : Obligations.SixteenLfsrStepsWriteEverySlotOnce := by
  refine ⟨fun c c' inj => Cipher.lfsrStep_congr inj, fun d inj hd =>
    ⟨fun k h => lfsrSteps_keep_invAlias hd h k, lfsrSteps_keep_fsm hd, fun k i h hslot => ?_,
      fun k i h hslot => ?_, lfsrSteps_reach_slot_once hd, fun hptr k hk => ?_⟩⟩
  · simp only [hd, Cipher.lfsrStep_getElem _ _ h, if_neg hslot]
  · simp only [hd, Cipher.lfsrStep_getElem _ _ h, if_pos hslot]
  · have hk0 := lfsrSteps_ptr hd 0 k
    rw [Nat.zero_add, hptr, show (15 : BitVec 4).toNat = 15 from rfl] at hk0
    omega

end Sys2Proof.Machine
end

