-- ==== Sys2Proof/Proofs/FsmRotation.lean ====
section
/-! PROOF. The rotation of the FSM bit by bit, and its inverse (41_fsm.md R103; 00_scope.md R11). -/

namespace Sys2Proof.Machine

/-- Bit `i` of a left rotation by `n` is the bit `n` places below it, counted around the word. -/
theorem rotl32_getLsbD (x : Word) {n i : Nat} (hn : n < 32) (hi : i < 32) :
    (rotl32 x n).getLsbD i = x.getLsbD ((i + (32 - n)) % 32) := by
  rcases Nat.eq_zero_or_pos n with rfl | hpos
  · simp [rotl32, Nat.mod_eq_of_lt hi]
  · rw [rotl32, if_neg hpos.ne', BitVec.getLsbD_or, BitVec.getLsbD_shiftLeft,
      BitVec.getLsbD_ushiftRight]
    by_cases hlow : i < n
    · have hplace : (i + (32 - n)) % 32 = 32 - n + i := by omega
      simp [hlow, hplace]
    · have hplace : (i + (32 - n)) % 32 = i - n := by omega
      have hout : x.getLsbD (32 - n + i) = false := BitVec.getLsbD_of_ge _ _ (by omega)
      simp [hi, hlow, hplace, hout]

/-- Left rotation by `n` moves bit `i` to bit `(i + n) mod 32`. -/
theorem rotl32_moves_bit (x : Word) {n i : Nat} (hn : n < 32) (hi : i < 32) :
    (rotl32 x n).getLsbD ((i + n) % 32) = x.getLsbD i := by
  have hplace : ((i + n) % 32 + (32 - n)) % 32 = i := by omega
  rw [rotl32_getLsbD x hn (Nat.mod_lt _ (by omega)), hplace]

/-- Left rotation undoes right rotation, for every amount of R11. -/
theorem rotl32_rotr32 (x : Word) {n : Nat} (hn : n < 32) : rotl32 (rotr32 x n) n = x := by
  refine BitVec.eq_of_getLsbD_eq fun i hi => ?_
  have hplace : ((i + (32 - n)) % 32 + (32 - (32 - n) % 32)) % 32 = i := by omega
  rw [rotl32_getLsbD _ hn hi, rotr32, rotl32_getLsbD x (Nat.mod_lt _ (by omega))
    (Nat.mod_lt _ (by omega)), hplace]

theorem rotl32_seven (x : Word) : rotl32 x 7 = (x <<< 7) ||| (x >>> 25) := rfl

/-- Right rotation by 7 is left rotation by 25, whose two shifts stand the other way round. -/
theorem rotr32_seven (x : Word) : rotr32 x 7 = (x >>> 7) ||| (x <<< 25) :=
  BitVec.or_comm (x <<< 25) (x >>> 7)

/-- `next_r1` is formed from the rotated sum of `fsm_out` and `R2` (41_fsm.md R102 to R104). -/
theorem Cipher.updateInternals_next_r1_eq_rotl32 (c : Cipher) (sbox : SBox) :
    (c.updateInternals sbox).next_r1
      = rotl32 ((c.updateInternals sbox).fsm_out + c.R2) 7 ^^^ c.R1 := by
  rw [Cipher.updateInternals_next_r1, Cipher.updateInternals_fsm_out]

/-- Settles O25: the formula and the place of each bit for every word, the six corner cases computed. -/
theorem rotationMovesEachBitBySeven : Obligations.RotationMovesEachBitBySeven :=
  ⟨rotl32_seven, fun x _ => rotl32_moves_bit x (by decide), by decide, by decide, by decide,
    by decide, by decide, by decide, rotr32_seven, fun x => rotl32_rotr32 x (by decide),
    fun sbox c => c.updateInternals_next_r1_eq_rotl32 sbox⟩

end Sys2Proof.Machine
end

