-- ==== Sys2Proof/Proofs/FsmSbox.lean ====
section
/-! PROOF. The S-box function of the FSM in terms of `R1` as a number (41_fsm.md R105). -/

namespace Sys2Proof.Machine

/-- `SFN` with its four bytes taken from the word as a number, byte 0 the least significant. -/
theorem sfn_eq_or_of_bytes (sbox : SBox) (r : Word) :
    sfn sbox r = sbox[0][r.toNat % 256] ||| sbox[1][r.toNat / 256 % 256]
      ||| sbox[2][r.toNat / 65536 % 256] ||| sbox[3][r.toNat / 16777216 % 256] := by
  simp [sfn, sboxRead, BitVec.extractLsb_toNat, Nat.shiftRight_eq_div_pow]

/-- Settles O26: the derive step reads the current `R1`, and a bit of an OR is the OR of the bits. -/
theorem nextR2IsTheOrOfFourLookups : Obligations.NextR2IsTheOrOfFourLookups := by
  intro sbox c i
  rw [Cipher.updateInternals_next_r2, sfn_eq_or_of_bytes]
  simp only [BitVec.getLsbD_or]

end Sys2Proof.Machine
end

