-- ==== Sys2Proof/Proofs/UpdateInternals.lean ====
section
/-! PROOF. `UPDATE_INTERNALS` and the invariant it establishes (42_clocking.md R110; 10_state.md R27). -/

namespace Sys2Proof.Machine

/-- Deriving establishes `INV_DERIVED`, whatever the derived registers held before. -/
theorem Cipher.updateInternals_invDerived (c : Cipher) (sbox : SBox) :
    (c.updateInternals sbox).InvDerived sbox :=
  ⟨rfl, rfl, rfl⟩

/-- Where the derived registers are up to date, deriving them again changes nothing. -/
theorem Cipher.InvDerived.updateInternals_eq {c : Cipher} {sbox : SBox} (h : c.InvDerived sbox) :
    c.updateInternals sbox = c := by
  obtain ⟨hout, hr1, hr2⟩ := h
  calc c.updateInternals sbox
      = { c with
          fsm_out := (c.R1 + c.stage 1) ^^^ c.R2
          next_r1 := rotl32 (((c.R1 + c.stage 1) ^^^ c.R2) + c.R2) 7 ^^^ c.R1
          next_r2 := sfn sbox c.R1 } := rfl
    _ = c := by rw [← hout, ← hr1, ← hr2]

/-- `SFN(0)` joins the first word of each table (41_fsm.md R105). -/
theorem sfn_zero (sbox : SBox) :
    sfn sbox 0 = sbox[0][0] ||| sbox[1][0] ||| sbox[2][0] ||| sbox[3][0] :=
  sfn_eq_or_of_bytes sbox 0

/-- With the FSM registers at 0 the derive step passes the first stage on (41_fsm.md R104). -/
theorem Cipher.updateInternals_of_zero_fsm {c : Cipher} (sbox : SBox) (hR1 : c.R1 = 0)
    (hR2 : c.R2 = 0) :
    (c.updateInternals sbox).fsm_out = c.stage 1
      ∧ (c.updateInternals sbox).next_r1 = rotl32 (c.stage 1) 7
      ∧ (c.updateInternals sbox).next_r2
        = (sbox[0][0] ||| sbox[1][0] ||| sbox[2][0] ||| sbox[3][0]) := by
  simp [hR1, hR2, ← sfn_zero]

/-- Settles O27: the derived registers and the frame field by field, and idempotence because the
first run establishes `INV_DERIVED`. -/
theorem updateInternalsDerives : Obligations.UpdateInternalsDerives := by
  intro sbox c
  have hderived := c.updateInternals_invDerived sbox
  refine ⟨?_, c.updateInternals_next_r1 sbox, c.updateInternals_next_r2 sbox, rfl, rfl, rfl, rfl,
    hderived, hderived.updateInternals_eq, c.updateInternals_of_zero_fsm sbox⟩
  rw [Cipher.updateInternals_fsm_out, BitVec.add_def]

end Sys2Proof.Machine
end

