-- ==== Sys2Proof/Proofs/Clocks.lean ====
section
/-! PROOF. The two clocks element by element (42_clocking.md R111, R112). -/

namespace Sys2Proof.Machine

/-- The decrement modulo 16 is the decrement that wraps from 0 to 15 (40_lfsr_gf232.md R97). -/
theorem decrement_mod_eq_wrap (p : BitVec 4) :
    (p.toNat + 15) % 16 = if p.toNat = 0 then 15 else p.toNat - 1 := by
  have := p.isLt
  split <;> omega

/-- With a cleared `fsm_out` there is nothing to inject (42_clocking.md R112). -/
theorem Cipher.feedbackClock_eq_clock {c : Cipher} (h : c.fsm_out = 0) :
    c.feedbackClock = c.clock := by
  rw [Cipher.feedbackClock, h, Cipher.clock]

theorem Cipher.feedback_zero (c : Cipher) :
    c.feedback 0 = alpha (c.stage 7 ^^^ c.stage 13 ^^^ c.stage 16) :=
  congrArg alpha BitVec.xor_zero

/-- Every word after `CLOCK`; the injection 0 is not seen (42_clocking.md R111). -/
theorem Cipher.clock_getElem (c : Cipher) {i : Nat} (hi : i < 32) :
    c.clock.L[i]
      = if i = c.ptr.toNat ∨ i = c.ptr.toNat + 16
        then alpha (c.stage 7 ^^^ c.stage 13 ^^^ c.stage 16) else c.L[i] := by
  simp only [Cipher.clock_L, Cipher.writeSlot_getElem, Cipher.feedback_zero]

/-- Every word after `FEEDBACK_CLOCK` (42_clocking.md R112). -/
theorem Cipher.feedbackClock_getElem (c : Cipher) {i : Nat} (hi : i < 32) :
    c.feedbackClock.L[i]
      = if i = c.ptr.toNat ∨ i = c.ptr.toNat + 16
        then alpha (c.stage 7 ^^^ c.stage 13 ^^^ c.stage 16 ^^^ c.fsm_out) else c.L[i] := by
  simp only [Cipher.feedbackClock_L, Cipher.writeSlot_getElem, Cipher.feedback_eq_alpha]

/-- Settles O30: the words of each clock, then the pointer and the registers, which do not depend on
the injection. -/
theorem clocksStepAndCommit : Obligations.ClocksStepAndCommit := by
  intro c
  refine ⟨fun _ => c.clock_getElem, fun _ => c.feedbackClock_getElem, fun d hd => ?_,
    Cipher.feedbackClock_eq_clock⟩
  have hptr (inj : Word) := (c.lfsrStep_ptr_toNat inj).trans (decrement_mod_eq_wrap c.ptr)
  rcases hd with rfl | rfl
  · exact ⟨hptr 0, rfl, rfl, rfl, rfl, rfl⟩
  · exact ⟨hptr c.fsm_out, rfl, rfl, rfl, rfl, rfl⟩

end Sys2Proof.Machine
end

