-- ==== Sys2Proof/Proofs/ReducedMap.lean ====
section
/-! PROOF. A clock and `UPDATE_INTERNALS` as the map on the reduced state (42_clocking.md R114). -/

namespace Sys2Proof.Machine

@[simp] theorem Cipher.stages_getElem (c : Cipher) (k : Nat) (hk : k < 16) :
    c.stages[k] = c.stage ⟨k + 1, by omega⟩ := by
  simp [Cipher.stages]

@[simp] theorem shiftStages_getElem_zero (v : Word) (stages : Vector Word 16) :
    (shiftStages v stages)[0] = v := by
  simp [shiftStages]

@[simp] theorem shiftStages_getElem_succ (v : Word) (stages : Vector Word 16) (k : Nat)
    (hk : k + 1 < 16) : (shiftStages v stages)[k + 1] = stages[k] := by
  simp [shiftStages]

/-- Where the aliases agree, a step shifts its feedback in at the first stage (40_lfsr_gf232.md R98). -/
theorem Cipher.InvAlias.lfsrStep_stages {c : Cipher} (h : c.InvAlias) (inj : Word) :
    (c.lfsrStep inj).stages = shiftStages (c.feedback inj) c.stages := by
  refine Vector.ext fun k hk => ?_
  cases k with
  | zero =>
    rw [Cipher.stages_getElem, shiftStages_getElem_zero]
    exact c.lfsrStep_stage_one inj
  | succ k =>
    rw [Cipher.stages_getElem, shiftStages_getElem_succ, Cipher.stages_getElem]
    exact h.lfsrStep_stage_succ inj ⟨k + 1, by omega⟩ (Nat.le_add_left 1 k) (Nat.le_of_lt_succ hk)

/-- The stages are read through `L` and `ptr`, which neither the commit nor the derive step writes. -/
theorem Cipher.stages_commit_updateInternals (c : Cipher) (sbox : SBox) :
    (c.commit.updateInternals sbox).stages = c.stages := by
  refine Vector.ext fun k hk => ?_
  rw [Cipher.stages_getElem, Cipher.stages_getElem]
  rfl

/-- The feedback in terms of the reduced state: `s_7`, `s_13` and `s_16` are its taps
(42_clocking.md R114). -/
theorem Cipher.feedback_eq_alpha_reduce (c : Cipher) (inj : Word) :
    c.feedback inj = alpha (c.reduce.stages[6] ^^^ c.reduce.stages[12] ^^^ c.reduce.stages[15]
      ^^^ inj) := by
  simp only [Cipher.reduce, Cipher.stages_getElem]
  rfl

/-- Where `INV_DERIVED` holds, `fsm_out` is the `F` of the reduced state (42_clocking.md R114). -/
theorem Cipher.InvDerived.fsmOutput_reduce {c : Cipher} {sbox : SBox} (h : c.InvDerived sbox) :
    c.reduce.fsmOutput = c.fsm_out := by
  obtain ⟨hout, -, -⟩ := h
  simp only [Reduced.fsmOutput, Cipher.reduce, Cipher.stages_getElem]
  exact hout.symm

/-- An LFSR step with any injection, the commit and the derive step are the map with that injection
(42_clocking.md R114). -/
theorem Cipher.reduce_step_commit_derive {c : Cipher} {sbox : SBox} (halias : c.InvAlias)
    (hderived : c.InvDerived sbox) (inj : Word) :
    ((c.lfsrStep inj).commit.updateInternals sbox).reduce = c.reduce.next sbox inj := by
  have hF := hderived.fsmOutput_reduce
  obtain ⟨-, hr1, hr2⟩ := hderived
  rw [Cipher.reduce, Reduced.next, Reduced.mk.injEq]
  refine ⟨?_, ?_, hr2⟩
  · rw [Cipher.stages_commit_updateInternals, halias.lfsrStep_stages,
      ← Cipher.feedback_eq_alpha_reduce]
    rfl
  · rw [hF]
    exact hr1

/-- Settles O31: each pair is a step with its own injection, and the injection of `FEEDBACK_CLOCK` is
`F` by `INV_DERIVED`. -/
theorem pairsAreTheReducedMap : Obligations.PairsAreTheReducedMap := by
  intro sbox c halias hderived
  have hmap := Cipher.reduce_step_commit_derive halias hderived
  refine ⟨hmap 0, ?_, c.clock.updateInternals_invDerived sbox,
    c.feedbackClock.updateInternals_invDerived sbox⟩
  rw [hderived.fsmOutput_reduce]
  exact hmap c.fsm_out

end Sys2Proof.Machine
end

