-- ==== Sys2Proof/Proofs/LoadSetup.lean ====
section
/-! PROOF. The primed state of `LOAD_KEY` in closed form (43_load_key.md R122 to R129): it depends
on the key words and, in IV mode, the IV words, and on nothing the cipher elements held before. -/

namespace Sys2Proof.Machine

/-- Every word after step 3 in IV mode (43_load_key.md R125). -/
theorem Cipher.injectIV_iv_getElem (c : Cipher) (iv2 iv1 : Word) {i : Nat} (hi : i < 32) :
    (c.injectIV .iv iv2 iv1).L[i]
      = if i = 0 then c.L[i] ^^^ iv1 else if i = 3 then c.L[i] ^^^ iv2 else c.L[i] := by
  by_cases h0 : i = 0
  · subst h0
    simp [Cipher.injectIV]
  · by_cases h3 : i = 3
    · subst h3
      simp [Cipher.injectIV]
    · simp [Cipher.injectIV, h0, h3, Ne.symm h0, Ne.symm h3]

/-- Every word after step 4 is that of its slot (43_load_key.md R126). -/
theorem Cipher.mirror_getElem (c : Cipher) {i : Nat} (hi : i < 32) :
    c.mirror.L[i] = c.L[i % 16] := by
  rw [Cipher.mirror_L, fillWords_getElem]
  split
  · simp only [show i % 16 = i - 16 by omega]
  · simp only [show i % 16 = i by omega]

/-- In IV mode the loaded words are those of standard mode with the IV words added to words 0 and 3
(43_load_key.md R125). -/
theorem loadedWord_iv (keyBits : Nat) (p : Ports) (i : Fin 16) :
    loadedWord keyBits 32 p i
      = if i.val = 0 then loadedWord keyBits 64 p i ^^^ p.iv1
        else if i.val = 3 then loadedWord keyBits 64 p i ^^^ p.iv2
        else loadedWord keyBits 64 p i := by
  simp [loadedWord]

/-- Steps 1 and 2 leave the loaded words of standard mode (43_load_key.md R122 to R124). -/
theorem Cipher.expandKey_parseKey_getElem (c : Cipher) (ks : KeySize) (p : Ports) {i : Nat}
    (hi : i < 16) :
    ((c.parseKey ks p.key).expandKey ks).L[i] = loadedWord (32 * ks.words) 64 p ⟨i, hi⟩ := by
  cases ks with
  | k128 =>
    simp only [Cipher.expandKey, fillWords_getElem, Cipher.parseKey_getElem]
    interval_cases i <;> simp [loadedWord, KeySize.words]
  | k256 =>
    simp only [Cipher.expandKey, fillWords_getElem, Cipher.parseKey_getElem]
    interval_cases i <;> simp [loadedWord, KeySize.words]

/-- Steps 1 to 3 leave the loaded words of the mode. -/
theorem Cipher.injectIV_expandKey_parseKey_getElem (c : Cipher) (ks : KeySize) (m : Mode)
    (p : Ports) {i : Nat} (hi : i < 16) :
    (((c.parseKey ks p.key).expandKey ks).injectIV m p.iv2 p.iv1).L[i]
      = loadedWord (32 * ks.words) m.clocks p ⟨i, hi⟩ := by
  cases m with
  | standard => exact c.expandKey_parseKey_getElem ks p hi
  | iv =>
    rw [Cipher.injectIV_iv_getElem, Cipher.expandKey_parseKey_getElem _ _ _ hi]
    exact (loadedWord_iv _ p ⟨i, hi⟩).symm

/-- Every word after steps 1 to 6 is the loaded word of its slot. -/
theorem Cipher.setup_getElem (c : Cipher) (ks : KeySize) (m : Mode) (p : Ports) {i : Nat}
    (hi : i < 32) :
    (c.setup ks m p).L[i]
      = loadedWord (32 * ks.words) m.clocks p ⟨i % 16, Nat.mod_lt i (by decide)⟩ :=
  (Cipher.mirror_getElem _ hi).trans (c.injectIV_expandKey_parseKey_getElem ks m p _)

@[simp] theorem Cipher.setup_R1 (c : Cipher) (ks : KeySize) (m : Mode) (p : Ports) :
    (c.setup ks m p).R1 = 0 := rfl
@[simp] theorem Cipher.setup_R2 (c : Cipher) (ks : KeySize) (m : Mode) (p : Ports) :
    (c.setup ks m p).R2 = 0 := rfl
@[simp] theorem Cipher.setup_ptr (c : Cipher) (ks : KeySize) (m : Mode) (p : Ports) :
    (c.setup ks m p).ptr = 15 := rfl

/-- With `ptr = 15` the first stage is word 16, the mirror of word 0. -/
theorem Cipher.setup_stage_one (c : Cipher) (ks : KeySize) (m : Mode) (p : Ports) :
    (c.setup ks m p).stage 1 = (c.setup ks m p).L[0] :=
  (c.setup_getElem ks m p (i := 16) (by decide)).trans
    (c.setup_getElem ks m p (i := 0) (by decide)).symm

/-- The mirror step establishes `INV_ALIAS` (43_load_key.md R126). -/
theorem Cipher.setup_invAlias (c : Cipher) (ks : KeySize) (m : Mode) (p : Ports) :
    (c.setup ks m p).InvAlias := fun i => by
  simp only [Cipher.setup_getElem, Nat.add_mod_right]

/-- A key word is a function of its four lanes (20_memory.md R55). -/
theorem keyWord_congr {key key' : Vector Byte 32} {i : Fin 8}
    (h : ∀ (j : Nat) (hj : j < 32), j / 4 = i.val → key[j] = key'[j]) :
    keyWord key i = keyWord key' i := by
  simp only [keyWord, h (4 * i.val) (by omega) (by omega), h (4 * i.val + 1) (by omega) (by omega),
    h (4 * i.val + 2) (by omega) (by omega), h (4 * i.val + 3) (by omega) (by omega)]

/-- What a load reads of its operands: the lanes of the key words, and in IV mode the IV words
(43_load_key.md R134, R138). -/
def Ports.AgreeFor (ks : KeySize) (m : Mode) (p q : Ports) : Prop :=
  (∀ (j : Nat) (hj : j < 32), j < 4 * ks.words → p.key[j] = q.key[j])
    ∧ (m = .iv → p.iv1 = q.iv1 ∧ p.iv2 = q.iv2)

theorem Ports.AgreeFor.refl (ks : KeySize) (m : Mode) (p : Ports) : p.AgreeFor ks m p :=
  ⟨fun _ _ _ => rfl, fun _ => ⟨rfl, rfl⟩⟩

theorem Ports.AgreeFor.keyWord_eq {ks : KeySize} {m : Mode} {p q : Ports} (h : p.AgreeFor ks m q)
    {i : Fin 8} (hi : i.val < ks.words) : keyWord p.key i = keyWord q.key i :=
  keyWord_congr fun j hj hji => h.1 j hj (by omega)

/-- The loaded words are a function of what the load reads of its operands. -/
theorem Ports.AgreeFor.loadedWord_eq {ks : KeySize} {m : Mode} {p q : Ports}
    (h : p.AgreeFor ks m q) (i : Fin 16) :
    loadedWord (32 * ks.words) m.clocks p i = loadedWord (32 * ks.words) m.clocks q i := by
  have hstandard : loadedWord (32 * ks.words) 64 p i = loadedWord (32 * ks.words) 64 q i := by
    cases ks with
    | k128 => simp [loadedWord, KeySize.words, h.keyWord_eq (i := ⟨i.val % 4, by omega⟩)
        (Nat.mod_lt i.val (by decide))]
    | k256 => simp [loadedWord, KeySize.words, h.keyWord_eq (i := ⟨i.val % 8, by omega⟩)
        (Nat.mod_lt i.val (by decide))]
  cases m with
  | standard => exact hstandard
  | iv =>
    obtain ⟨hiv1, hiv2⟩ := h.2 rfl
    simp only [Mode.clocks, loadedWord_iv, hstandard, hiv1, hiv2]

/-- The derive step makes every element a function of the buffer, the pointer, `R1` and `R2`
(42_clocking.md R110). -/
theorem Cipher.updateInternals_congr {c d : Cipher} (sbox : SBox) (hL : c.L = d.L)
    (hptr : c.ptr = d.ptr) (hR1 : c.R1 = d.R1) (hR2 : c.R2 = d.R2) :
    c.updateInternals sbox = d.updateInternals sbox := by
  obtain ⟨L, ptr, R1, R2, _, _, _⟩ := c
  obtain ⟨L', ptr', R1', R2', _, _, _⟩ := d
  obtain rfl : L = L' := hL
  obtain rfl : ptr = ptr' := hptr
  obtain rfl : R1 = R1' := hR1
  obtain rfl : R2 = R2' := hR2
  rfl

/-- What a load leaves in the cipher elements depends on the tables and on what it reads of its
operands, not on what they held before (43_load_key.md R133). -/
theorem Ports.AgreeFor.loadKey_eq {ks : KeySize} {m : Mode} {p q : Ports} (h : p.AgreeFor ks m q)
    (sbox : SBox) (c d : Cipher) : c.loadKey sbox ks m p = d.loadKey sbox ks m q := by
  have hL : (c.setup ks m p).L = (d.setup ks m q).L := Vector.ext fun i hi => by
    rw [Cipher.setup_getElem, Cipher.setup_getElem, h.loadedWord_eq]
  have hprimed : (c.setup ks m p).updateInternals sbox
      = (d.setup ks m q).updateInternals sbox := by
    apply Cipher.updateInternals_congr sbox hL <;>
      simp only [Cipher.setup_ptr, Cipher.setup_R1, Cipher.setup_R2]
  rw [Cipher.loadKey, Cipher.loadKey, hprimed]

/-- The FSM registers are 0 when the derived registers are primed (43_load_key.md R127, R129). -/
theorem Cipher.primed_derived (sbox : SBox) (c : Cipher) (ks : KeySize) (m : Mode) (p : Ports) :
    ((c.setup ks m p).updateInternals sbox).fsm_out = (c.setup ks m p).L[0]
      ∧ ((c.setup ks m p).updateInternals sbox).next_r1 = rotl32 (c.setup ks m p).L[0] 7
      ∧ ((c.setup ks m p).updateInternals sbox).next_r2 = sfn sbox 0 := by
  rw [← Cipher.setup_stage_one, sfn_zero]
  exact Cipher.updateInternals_of_zero_fsm sbox rfl rfl

end Sys2Proof.Machine
end

