-- ==== Sys2Proof/Proofs/LoadMixing.lean ====
section
/-! PROOF. What the mixing loop keeps (43_load_key.md R130), and so what every load ends in
(R136). -/

namespace Sys2Proof.Machine

/-- `INV_ALIAS` is about the buffer alone (10_state.md R22). -/
theorem Cipher.InvAlias.of_L_eq {c d : Cipher} (h : c.InvAlias) (hL : d.L = c.L) : d.InvAlias := by
  simpa only [Cipher.InvAlias, hL] using h

/-- `FEEDBACK_CLOCK` writes the buffer as an LFSR step does. -/
theorem Cipher.InvAlias.mix {c : Cipher} (h : c.InvAlias) (sbox : SBox) (n : Nat) :
    (c.mix sbox n).InvAlias := by
  induction n generalizing c with
  | zero => exact h
  | succ n ih => exact ih ((h.lfsrStep c.fsm_out).of_L_eq rfl)

/-- Each pair of the mixing loop ends with the derive step. -/
theorem Cipher.InvDerived.mix {c : Cipher} {sbox : SBox} (h : c.InvDerived sbox) (n : Nat) :
    (c.mix sbox n).InvDerived sbox := by
  induction n generalizing c with
  | zero => exact h
  | succ n ih => exact ih (c.feedbackClock.updateInternals_invDerived sbox)

/-- Each pair of the mixing loop lowers the pointer by one modulo 16 (40_lfsr_gf232.md R97). -/
theorem Cipher.mix_ptr_toNat (sbox : SBox) (n : Nat) (c : Cipher) :
    (c.mix sbox n).ptr.toNat = (c.ptr.toNat + 15 * n) % 16 := by
  induction n generalizing c with
  | zero => exact (Nat.mod_eq_of_lt c.ptr.isLt).symm
  | succ n ih =>
    have hstep : (c.feedbackClock.updateInternals sbox).ptr.toNat = (c.ptr.toNat + 15) % 16 :=
      c.lfsrStep_ptr_toNat c.fsm_out
    rw [Cipher.mix, ih, hstep]
    omega

/-- Both modes clock a multiple of 16 times, so the pointer ends where it began
(43_load_key.md R136). -/
theorem Cipher.loadKey_ptr (sbox : SBox) (ks : KeySize) (m : Mode) (p : Ports) (c : Cipher) :
    (c.loadKey sbox ks m p).ptr = 15 := by
  rw [← BitVec.toNat_inj, Cipher.loadKey, Cipher.mix_ptr_toNat, Cipher.updateInternals_ptr,
    Cipher.setup_ptr]
  cases m <;> rfl

/-- Both invariants hold after a load (43_load_key.md R136). -/
theorem Cipher.loadKey_inv (sbox : SBox) (ks : KeySize) (m : Mode) (p : Ports) (c : Cipher) :
    (c.loadKey sbox ks m p).InvAlias ∧ (c.loadKey sbox ks m p).InvDerived sbox := by
  have halias : ((c.setup ks m p).updateInternals sbox).InvAlias :=
    (c.setup_invAlias ks m p).of_L_eq rfl
  have hderived := (c.setup ks m p).updateInternals_invDerived sbox
  rw [Cipher.loadKey]
  exact ⟨halias.mix sbox m.clocks, hderived.mix m.clocks⟩

end Sys2Proof.Machine
end

