-- ==== Sys2Proof/Proofs/LoadKey.lean ====
section
/-! PROOF. `LOAD_KEY` as an equation in each case, what a legal load leaves and what it reads
(43_load_key.md R131 to R138). -/

namespace Sys2Proof.Machine

theorem KeySize.ofBits_words (ks : KeySize) : KeySize.ofBits (32 * ks.words) = some ks := by
  cases ks <;> rfl

theorem Mode.ofTag_clocks (m : Mode) : Mode.ofTag m.clocks = some m := by
  cases m <;> rfl

/-- The fields of a legal load name a key size and a mode, and the key is long enough
(60_exceptions.md R154). -/
theorem LegalLoad.exists_keySize_mode {klen mode keyBits : Nat} (h : LegalLoad klen mode keyBits) :
    ∃ (ks : KeySize) (m : Mode),
      keyBits = 32 * ks.words ∧ mode = m.clocks ∧ 4 * ks.words ≤ klen := by
  obtain ⟨hbits, hmode, hklen⟩ := h
  obtain ⟨ks, rfl⟩ : ∃ ks : KeySize, keyBits = 32 * ks.words :=
    hbits.elim (fun h => ⟨.k128, h⟩) fun h => ⟨.k256, h⟩
  obtain ⟨m, rfl⟩ : ∃ m : Mode, mode = m.clocks :=
    hmode.elim (fun h => ⟨.standard, h⟩) fun h => ⟨.iv, h⟩
  exact ⟨ks, m, rfl, rfl, by omega⟩

/-- The state a legal load leaves (43_load_key.md R132). -/
def State.loaded (s : State) (ks : KeySize) (m : Mode) : State :=
  { s with
    cipher := s.cipher.loadKey s.sbox ks m s.ports
    keyed := true
    responses := s.responses ++ [.done] }

/-- A `LOAD_KEY` that passes its checks loads. -/
theorem exec_loadKey_eq_loaded (ks : KeySize) (m : Mode) {klen : Nat} (h : 4 * ks.words ≤ klen)
    (s : State) : exec (.loadKey klen m.clocks (32 * ks.words)) s = .next (s.loaded ks m) := by
  have hcheck : checkLoadKey klen m.clocks (32 * ks.words) = .ok (ks, m) := by
    simp only [checkLoadKey, KeySize.ofBits_words, Mode.ofTag_clocks]
    exact if_neg (by omega)
  simp only [exec, execLoadKey, hcheck]
  rfl

/-- A `LOAD_KEY` that fails a check ends the session with an error that its fields decide
(60_exceptions.md R154, R156). -/
theorem exec_loadKey_of_not_legal {klen mode keyBits : Nat} (h : ¬ LegalLoad klen mode keyBits) :
    ∃ e, ∀ s, exec (.loadKey klen mode keyBits) s = .next (s.invalidate.respond (.error e)) := by
  obtain ⟨e, hfails, hcheck⟩ :
      ∃ e, e.failsLoad = true ∧ checkLoadKey klen mode keyBits = .error e := by
    rcases checkLoadKey_cases klen mode keyBits with
      ⟨-, -, hcheck⟩ | ⟨-, -, -, hcheck⟩ | ⟨-, -, -, hcheck⟩ | ⟨legal, -⟩
    · exact ⟨_, rfl, hcheck⟩
    · exact ⟨_, rfl, hcheck⟩
    · exact ⟨_, rfl, hcheck⟩
    · exact absurd legal h
  exact ⟨e, fun s => by simp only [exec, execLoadKey, hcheck, State.raise_failsLoad s e hfails]⟩

/-- With the same tables and operands the cipher elements come out equal (43_load_key.md R133). -/
theorem State.loaded_cipher_eq (ks : KeySize) (m : Mode) {s t : State} (hsbox : s.sbox = t.sbox)
    (hports : s.ports = t.ports) : (s.loaded ks m).cipher = (t.loaded ks m).cipher := by
  simp only [State.loaded, hsbox, hports]
  exact (Ports.AgreeFor.refl ks m t.ports).loadKey_eq t.sbox s.cipher t.cipher

/-- Other operands that the load reads alike change nothing but the ports. -/
theorem State.loaded_of_agreeFor {ks : KeySize} {m : Mode} (s : State) {p : Ports}
    (h : s.ports.AgreeFor ks m p) :
    ({ s with ports := p } : State).loaded ks m = { s.loaded ks m with ports := p } := by
  simp only [State.loaded, h.loadKey_eq s.sbox s.cipher s.cipher]

/-- Settles O12: `c0` is the cipher after steps 1 to 7. -/
theorem legalLoadKeyCompletes : Obligations.LegalLoadKeyCompletes := by
  intro klen mode keyBits s legal
  obtain ⟨ks, m, rfl, rfl, hklen⟩ := legal.exists_keySize_mode
  obtain ⟨hout, hr1, hr2⟩ := Cipher.primed_derived s.sbox s.cipher ks m s.ports
  refine ⟨s.loaded ks m, (s.cipher.setup ks m s.ports).updateInternals s.sbox,
    exec_loadKey_eq_loaded ks m hklen s, rfl, rfl, rfl, rfl, rfl, rfl, fun i => ?_, rfl, rfl, rfl,
    hout, hr1, hr2, Cipher.mix_eq_iterate s.sbox m.clocks _, Cipher.loadKey_ptr ..⟩
  have hslot : (⟨i.val % 16, Nat.mod_lt _ (by decide)⟩ : Fin 16) = i :=
    Fin.ext (Nat.mod_eq_of_lt i.isLt)
  simp only [Cipher.updateInternals_L, Cipher.setup_getElem, Nat.add_mod_right, hslot, and_self]

/-- Settles O15: the load ends in the mixing loop, which keeps both invariants. -/
theorem loadKeyLeavesAConsistentState : Obligations.LoadKeyLeavesAConsistentState := by
  intro klen mode keyBits s legal
  obtain ⟨ks, m, rfl, rfl, hklen⟩ := legal.exists_keySize_mode
  obtain ⟨halias, hderived⟩ := s.cipher.loadKey_inv s.sbox ks m s.ports
  exact ⟨s.loaded ks m, exec_loadKey_eq_loaded ks m hklen s, halias, hderived,
    Cipher.loadKey_ptr .., rfl⟩

/-- Settles O16: equal operands are read alike, and nothing else is read. -/
theorem loadKeyForgetsThePriorState : Obligations.LoadKeyForgetsThePriorState := by
  intro klen mode keyBits s t legal hsbox hports
  obtain ⟨ks, m, rfl, rfl, hklen⟩ := legal.exists_keySize_mode
  exact ⟨s.loaded ks m, t.loaded ks m, exec_loadKey_eq_loaded ks m hklen s,
    exec_loadKey_eq_loaded ks m hklen t, State.loaded_cipher_eq ks m hsbox hports, rfl⟩

/-- Settles O17: a legal load in standard mode does not read the IV ports, and a failing one answers
with an error that its fields decide. -/
theorem standardModeIgnoresTheIV : Obligations.StandardModeIgnoresTheIV := by
  intro klen keyBits s iv2 iv1
  by_cases legal : LegalLoad klen 64 keyBits
  · obtain ⟨ks, m, rfl, hm, hklen⟩ := legal.exists_keySize_mode
    obtain rfl : m = .standard := by
      cases m with
      | standard => rfl
      | iv => exact absurd hm (by decide)
    have hagree : s.ports.AgreeFor ks .standard { s.ports with iv2 := iv2, iv1 := iv1 } :=
      ⟨fun _ _ _ => rfl, nofun⟩
    refine ⟨s.loaded ks .standard, _, exec_loadKey_eq_loaded ks .standard hklen _,
      exec_loadKey_eq_loaded ks .standard hklen _, rfl, rfl, rfl, rfl,
      fun _ => s.loaded_of_agreeFor hagree⟩
  · obtain ⟨e, hexec⟩ := exec_loadKey_of_not_legal legal
    exact ⟨_, _, hexec s, hexec _, rfl, rfl, rfl, rfl, fun h => absurd h legal⟩

/-- Settles O18: the lanes a key of that size has are all a load reads of the KEY port. -/
theorem keyBytesBeyondTheKeyAreIgnored : Obligations.KeyBytesBeyondTheKeyAreIgnored := by
  intro klen klen' mode keyBits s key legal legal' hkey
  obtain ⟨ks, m, rfl, rfl, hklen⟩ := legal.exists_keySize_mode
  have hklen' : 32 * ks.words / 8 ≤ klen' := legal'.2.2
  have hagree : s.ports.AgreeFor ks m { s.ports with key := key } :=
    ⟨fun j hj hlt => (hkey j hj (by omega)).symm, fun _ => ⟨rfl, rfl⟩⟩
  refine ⟨s.loaded ks m, exec_loadKey_eq_loaded ks m hklen s, rfl, ?_⟩
  rw [exec_loadKey_eq_loaded ks m (by omega), s.loaded_of_agreeFor hagree]

end Sys2Proof.Machine
end

