-- ==== Sys2Proof/Proofs/Reload.lean ====
section
/-! PROOF. States whose differences no response can show, and runs of them (43_load_key.md R135):
they agree on `keyed`, the tables and the pending acts, and on the cipher elements while keyed. -/

namespace Sys2Proof.Machine

/-! ## One equation of the step per kind of act -/

theorem step_idle {s : State} (h : s.inputs = []) : step s = .next s := by
  simp only [step, h]

theorem step_reset {s : State} {rest : List HostEvent} (h : s.inputs = .reset :: rest) :
    step s = .next (s.takeReset rest) := by
  simp only [step, h]

theorem step_illegal {s : State} {c : Command} {rest : List HostEvent} {why : Illegal}
    (h : s.inputs = .command c :: rest) (hd : decode c.cmd = .error why) :
    step s = .next ((s.accept c rest).respond (.error .illegalCommand)) := by
  simp only [step, h, hd]
  rfl

theorem step_decoded {s : State} {c : Command} {rest : List HostEvent} {i : Instr}
    (h : s.inputs = .command c :: rest) (hd : decode c.cmd = .ok i) :
    step s = exec i (s.accept c rest) := by
  simp only [step, h, hd]

/-- A run is its first step and the run from there. -/
theorem State.after_succ {s t : State} (h : step s = .next t) (n : Nat) :
    s.after (n + 1) = t.after n := by
  simp only [State.after, h]

/-! ## The relation -/

/-- Two states that agree on everything a later response can depend on. -/
structure State.Alike (s t : State) : Prop where
  keyed : s.keyed = t.keyed
  sbox : s.sbox = t.sbox
  inputs : s.inputs = t.inputs
  cipher : s.keyed = true → s.cipher = t.cipher

/-- From `s` and `t` two runs have come to `s'` and `t'` with the same new responses, and what
is still to come is alike. -/
def State.AnswerAlike (s t s' t' : State) : Prop :=
  s'.Alike t' ∧ ∃ new, s'.responses = s.responses ++ new ∧ t'.responses = t.responses ++ new

theorem State.AnswerAlike.trans {s t s' t' s'' t'' : State} (h : s.AnswerAlike t s' t')
    (h' : s'.AnswerAlike t' s'' t'') : s.AnswerAlike t s'' t'' := by
  obtain ⟨-, new, hs, ht⟩ := h
  obtain ⟨halike, new', hs', ht'⟩ := h'
  exact ⟨halike, new ++ new', by rw [hs', hs, List.append_assoc],
    by rw [ht', ht, List.append_assoc]⟩

/-- States that are not keyed may differ in the cipher elements (10_state.md R33). -/
theorem State.alike_of_not_keyed {s t : State} (hs : s.keyed = false) (ht : t.keyed = false)
    (hsbox : s.sbox = t.sbox) (hinputs : s.inputs = t.inputs) : s.Alike t :=
  ⟨hs.trans ht.symm, hsbox, hinputs, fun h => absurd h (by simp [hs])⟩

/-- A legal load makes any two states with the same tables alike, given the same operands. -/
theorem State.loaded_alike (ks : KeySize) (m : Mode) {s t : State} (hsbox : s.sbox = t.sbox)
    (hports : s.ports = t.ports) (hinputs : s.inputs = t.inputs) :
    (s.loaded ks m).Alike (t.loaded ks m) :=
  ⟨rfl, hsbox, hinputs, fun _ => State.loaded_cipher_eq ks m hsbox hports⟩

/-- Both states answer the command alike. -/
theorem State.Alike.exec {s t : State} (h : s.Alike t) (hports : s.ports = t.ports) (i : Instr) :
    ∃ s' t', exec i s = .next s' ∧ exec i t = .next t' ∧ s.AnswerAlike t s' t' := by
  obtain ⟨hkeyed, hsbox, hinputs, hcipher⟩ := h
  cases i with
  | loadKey klen mode keyBits =>
    by_cases legal : LegalLoad klen mode keyBits
    · obtain ⟨ks, m, rfl, rfl, hklen⟩ := legal.exists_keySize_mode
      exact ⟨_, _, exec_loadKey_eq_loaded ks m hklen s, exec_loadKey_eq_loaded ks m hklen t,
        State.loaded_alike ks m hsbox hports hinputs, [.done], rfl, rfl⟩
    · obtain ⟨e, hexec⟩ := exec_loadKey_of_not_legal legal
      exact ⟨_, _, hexec s, hexec t, State.alike_of_not_keyed rfl rfl hsbox hinputs,
        [.error e], rfl, rfl⟩
  | keystream =>
    cases hs : s.keyed with
    | true =>
      have ht : t.keyed = true := hkeyed ▸ hs
      have heq := hcipher hs
      refine ⟨_, _, execKeystream_keyed s hs, execKeystream_keyed t ht,
        ⟨hkeyed, hsbox, hinputs, fun _ => ?_⟩, [.word s.cipher.keystreamWord], rfl, ?_⟩
      · simp only [State.respond_cipher, heq, hsbox]
      · simp only [State.respond_responses, heq]
    | false =>
      have ht : t.keyed = false := hkeyed ▸ hs
      exact ⟨_, _, execKeystream_not_keyed s hs, execKeystream_not_keyed t ht,
        State.alike_of_not_keyed hs ht hsbox hinputs, [.error .notKeyed], rfl, rfl⟩

/-- Accepting a command samples the same operands in both. -/
theorem State.Alike.accept {s t : State} (h : s.Alike t) (c : Command) (rest : List HostEvent) :
    (s.accept c rest).Alike (t.accept c rest) :=
  ⟨h.keyed, h.sbox, rfl, h.cipher⟩

/-- Alike states take the host's next act with the same answer and stay alike. -/
theorem State.Alike.step {s t : State} (h : s.Alike t) :
    ∃ s' t', step s = .next s' ∧ step t = .next t' ∧ s.AnswerAlike t s' t' := by
  rcases step_cases s with ⟨hin, hstep⟩ | ⟨rest, hin, hstep⟩ | ⟨c, rest, why, hin, hd, hstep⟩
    | ⟨c, rest, i, hin, hd, hstep⟩
  · exact ⟨s, t, hstep, step_idle (h.inputs ▸ hin), h, [], by simp, by simp⟩
  · exact ⟨_, _, hstep, step_reset (h.inputs ▸ hin), State.alike_of_not_keyed rfl rfl h.sbox rfl,
      [], by simp, by simp⟩
  · have haccept := h.accept c rest
    exact ⟨_, _, hstep, step_illegal (h.inputs ▸ hin) hd,
      ⟨haccept.keyed, haccept.sbox, rfl, haccept.cipher⟩, [.error .illegalCommand], rfl, rfl⟩
  · rw [hstep, step_decoded (h.inputs ▸ hin) hd]
    exact (h.accept c rest).exec rfl i

/-- Alike states answer alike for ever. -/
theorem State.Alike.after {s t : State} (h : s.Alike t) (n : Nat) :
    ∃ s' t', s.after n = some s' ∧ t.after n = some t' ∧ s.AnswerAlike t s' t' := by
  induction n generalizing s t with
  | zero => exact ⟨s, t, rfl, rfl, h, [], by simp, by simp⟩
  | succ n ih =>
    obtain ⟨s₁, t₁, hs, ht, hfirst⟩ := h.step
    obtain ⟨s', t', hs', ht', hrest⟩ := ih hfirst.1
    exact ⟨s', t', (State.after_succ hs n).trans hs', (State.after_succ ht n).trans ht',
      hfirst.trans hrest⟩

/-- Settles O41: the load makes the two states alike, whatever they were. -/
theorem reloadForgetsThePast : Obligations.ReloadForgetsThePast := by
  intro n s t e rest hload hsbox hs ht
  obtain ⟨c, klen, mode, keyBits, rfl, hd, legal⟩ := hload
  obtain ⟨ks, m, rfl, rfl, hklen⟩ := legal.exists_keySize_mode
  have hloaded (u : State) (hu : u.inputs = .command c :: rest) :
      step u = .next ((u.accept c rest).loaded ks m) :=
    (step_decoded hu hd).trans (exec_loadKey_eq_loaded ks m hklen _)
  have hfirst : s.AnswerAlike t ((s.accept c rest).loaded ks m) ((t.accept c rest).loaded ks m) :=
    ⟨State.loaded_alike ks m hsbox rfl rfl, [.done], rfl, rfl⟩
  cases n with
  | zero => exact ⟨s, t, [], rfl, rfl, by simp, by simp⟩
  | succ n =>
    obtain ⟨s', t', hs', ht', hrest⟩ := hfirst.1.after n
    obtain ⟨-, new, hnews, hnewt⟩ := hfirst.trans hrest
    exact ⟨s', t', new, (State.after_succ (hloaded s hs) n).trans hs',
      (State.after_succ (hloaded t ht) n).trans ht', hnews, hnewt⟩

end Sys2Proof.Machine
end

