-- ==== Sys2Proof/Proofs/KeystreamRun.lean ====
section
/-! PROOF. `KEYSTREAM` in a keyed state, and runs of it as the recurrence of the reduced state
(44_keystream.md R145, R149). -/

namespace Sys2Proof.Machine

/-! ## The cipher elements -/

/-- Where `INV_DERIVED` holds, the word read from `fsm_out` and `L[ptr + 16]` is that of the reduced
state (44_keystream.md R149). -/
theorem Cipher.InvDerived.keystreamWord_eq {c : Cipher} {sbox : SBox} (h : c.InvDerived sbox) :
    c.keystreamWord = c.reduce.word := by
  rw [Reduced.word, h.fsmOutput_reduce, Cipher.reduce, Cipher.stages_getElem]
  rfl

/-- The clock of a `KEYSTREAM` writes both aliases alike. -/
theorem Cipher.InvAlias.advance {c : Cipher} (h : c.InvAlias) (sbox : SBox) :
    (c.advance sbox).InvAlias :=
  (h.lfsrStep 0).of_L_eq rfl

/-- A `KEYSTREAM` ends with the derive step (44_keystream.md R143). -/
theorem Cipher.advance_invDerived (c : Cipher) (sbox : SBox) :
    (c.advance sbox).InvDerived sbox :=
  c.clock.updateInternals_invDerived sbox

/-- A `KEYSTREAM` is the map with injection 0 (42_clocking.md R114). -/
theorem Cipher.reduce_advance {c : Cipher} {sbox : SBox} (halias : c.InvAlias)
    (hderived : c.InvDerived sbox) : (c.advance sbox).reduce = c.reduce.next sbox 0 :=
  Cipher.reduce_step_commit_derive halias hderived 0

/-! ## The command -/

/-- The state a `KEYSTREAM` of a keyed state leaves: the word answered, the cipher advanced. -/
def State.drawn (s : State) : State :=
  { s with cipher := s.cipher.advance s.sbox }.respond (.word s.cipher.keystreamWord)

theorem exec_keystream_eq_drawn {s : State} (h : s.keyed = true) :
    exec .keystream s = .next s.drawn :=
  execKeystream_keyed s h

/-- A pending `KEYSTREAM` of a keyed state is accepted, whatever the ports carry, and runs. -/
theorem step_keystream_eq_drawn {s : State} {c : Command} {rest : List HostEvent}
    (hkeyed : s.keyed = true) (hin : s.inputs = .command c :: rest)
    (hd : decode c.cmd = .ok .keystream) : step s = .next (s.accept c rest).drawn :=
  (step_decoded hin hd).trans (exec_keystream_eq_drawn hkeyed)

/-- Settles O20: the word and the frame by the update of `drawn`, the buffer and the pointer by the
clock, the derived registers by the derive step the command ends with. -/
theorem keystreamTransition : Obligations.KeystreamTransition := by
  refine fun s => ⟨fun hkeyed => ?_, execKeystream_not_keyed s⟩
  have hptr : (s.cipher.advance s.sbox).ptr.toNat
      = if s.cipher.ptr.toNat = 0 then 15 else s.cipher.ptr.toNat - 1 :=
    (s.cipher.lfsrStep_ptr_toNat 0).trans (decrement_mod_eq_wrap s.cipher.ptr)
  exact ⟨s.drawn, exec_keystream_eq_drawn hkeyed, rfl, fun _ => s.cipher.clock_getElem, hptr, rfl,
    rfl, s.cipher.advance_invDerived s.sbox, hkeyed, rfl, rfl, rfl, rfl⟩

/-! ## Runs -/

/-- The words of the recurrence from `r` on: the one of `r`, then those of its successor
(44_keystream.md R149). -/
theorem Reduced.words_later_succ (sbox : SBox) (r : Reduced) (n : Nat) :
    (List.range (n + 1)).map (fun k => Response.word (r.later sbox k).word)
      = .word r.word
        :: (List.range n).map (fun k => Response.word ((r.next sbox 0).later sbox k).word) := by
  rw [List.range_succ_eq_map, List.map_cons, List.map_map]
  rfl

/-- Settles O21, by induction on the commands: the first answers the word of the reduced state and
leaves the invariant and the reduced state's successor to the others. -/
theorem keystreamIsTheReducedSequence : Obligations.KeystreamIsTheReducedSequence := by
  intro evs rest s hkeyed hinv hevs hin
  induction evs generalizing s with
  | nil => exact ⟨s, rfl, by simp, rfl, hkeyed, hinv, hin⟩
  | cons e evs ih =>
    obtain ⟨⟨c, rfl, hd⟩, hothers⟩ := List.forall_mem_cons.mp hevs
    obtain ⟨halias, hderived⟩ := hinv hkeyed
    let u := (s.accept c (evs ++ rest)).drawn
    have hstep : step s = .next u := step_keystream_eq_drawn hkeyed hin hd
    have hreduce : u.cipher.reduce = s.cipher.reduce.next s.sbox 0 :=
      Cipher.reduce_advance halias hderived
    have hresp : u.responses = s.responses ++ [.word s.cipher.reduce.word] := by
      rw [← hderived.keystreamWord_eq]
      rfl
    have huinv : u.Inv := fun _ => ⟨halias.advance s.sbox, s.cipher.advance_invDerived s.sbox⟩
    obtain ⟨t, hafter, htresp, htreduce, htail⟩ := ih u hkeyed huinv hothers rfl
    rw [hresp, hreduce, List.append_assoc, List.singleton_append] at htresp
    rw [hreduce] at htreduce
    refine ⟨t, (State.after_succ hstep evs.length).trans hafter, ?_, htreduce, htail⟩
    rw [htresp, List.length_cons, Reduced.words_later_succ]
    rfl

end Sys2Proof.Machine
end

