-- ==== Sys2Proof/Proofs/Exceptions.lean ====
section
/-! PROOF. The errors: the checks of `LOAD_KEY` in their order (60_exceptions.md R154, R156) and a word
that does not decode (R159). -/

namespace Sys2Proof.Machine

/-! ## A failed check: which error it reports, and what the command then does -/

theorem KeySize.exists_ofBits_eq_some {keyBits : Nat} (h : keyBits = 128 ∨ keyBits = 256) :
    ∃ ks, KeySize.ofBits keyBits = some ks := by
  rcases h with rfl | rfl
  · exact ⟨.k128, rfl⟩
  · exact ⟨.k256, rfl⟩

theorem Mode.exists_ofTag_eq_some {mode : Nat} (h : mode = 64 ∨ mode = 32) :
    ∃ m, Mode.ofTag mode = some m := by
  rcases h with rfl | rfl
  · exact ⟨.standard, rfl⟩
  · exact ⟨.iv, rfl⟩

theorem checkLoadKey_invalidKeySize (klen mode : Nat) {keyBits : Nat} (h128 : keyBits ≠ 128)
    (h256 : keyBits ≠ 256) : checkLoadKey klen mode keyBits = .error .invalidKeySize := by
  simp only [checkLoadKey, KeySize.ofBits, if_neg h128, if_neg h256]

theorem checkLoadKey_invalidMode (klen : Nat) {mode keyBits : Nat}
    (hbits : keyBits = 128 ∨ keyBits = 256) (h64 : mode ≠ 64) (h32 : mode ≠ 32) :
    checkLoadKey klen mode keyBits = .error .invalidMode := by
  obtain ⟨ks, hks⟩ := KeySize.exists_ofBits_eq_some hbits
  simp only [checkLoadKey, hks, Mode.ofTag, if_neg h64, if_neg h32]

theorem checkLoadKey_keyTooShort {klen mode keyBits : Nat} (hbits : keyBits = 128 ∨ keyBits = 256)
    (hmode : mode = 64 ∨ mode = 32) (hklen : klen < keyBits / 8) :
    checkLoadKey klen mode keyBits = .error .keyTooShort := by
  obtain ⟨ks, hks⟩ := KeySize.exists_ofBits_eq_some hbits
  obtain ⟨m, hm⟩ := Mode.exists_ofTag_eq_some hmode
  simp only [checkLoadKey, hks, hm, if_pos hklen]

/-- A `LOAD_KEY` whose checks report `e` answers with it, and the session ends (60_exceptions.md
R156). -/
theorem exec_loadKey_of_check_error {klen mode keyBits : Nat} {e : ErrorKind}
    (hcheck : checkLoadKey klen mode keyBits = .error e) (hfails : e.failsLoad = true) (s : State) :
    exec (.loadKey klen mode keyBits) s = .next (s.invalidate.respond (.error e)) := by
  simp only [exec, execLoadKey, hcheck, State.raise_failsLoad s e hfails]

/-! ## The obligations -/

/-- Settles O14: each case is one failed check, and all three errors end the session alike. -/
theorem loadKeyReportsTheFirstFailedCheck : Obligations.LoadKeyReportsTheFirstFailedCheck := by
  intro klen mode keyBits s e hcase
  obtain ⟨hcheck, hfails⟩ :
      checkLoadKey klen mode keyBits = .error e ∧ e.failsLoad = true := by
    rcases hcase with ⟨h128, h256, rfl⟩ | ⟨hbits, h64, h32, rfl⟩ | ⟨hbits, hmode, hklen, rfl⟩
    · exact ⟨checkLoadKey_invalidKeySize klen mode h128 h256, rfl⟩
    · exact ⟨checkLoadKey_invalidMode klen hbits h64 h32, rfl⟩
    · exact ⟨checkLoadKey_keyTooShort hbits hmode hklen, rfl⟩
  exact ⟨s.invalidate.respond (.error e), exec_loadKey_of_check_error hcheck hfails s,
    rfl, rfl, rfl, rfl, rfl⟩

/-- Settles O6: the word is accepted and answered by `IllegalCommand`, which fails no load, so nothing
else changes. -/
theorem illegalCommandChangesNoState : Obligations.IllegalCommandChangesNoState :=
  fun _ _ _ _ hin hd => ⟨step_illegal hin hd, rfl⟩

end Sys2Proof.Machine
end

