-- ==== Sys2Proof/Proofs/EncodeDecode.lean ====
section
/-! PROOF. The encoder in terms of the command word as a number, and the round trips of encoding and
decoding (30_encoding.md R72, R74, R76). -/

namespace Sys2Proof

/-- A word put in front of another counts in units above it. -/
theorem toNat_append_eq_add {m n : Nat} (x : BitVec m) (y : BitVec n) :
    (x ++ y).toNat = x.toNat * 2 ^ n + y.toNat := by
  rw [BitVec.toNat_append, ← Nat.shiftLeft_add_eq_or_of_lt y.isLt, Nat.shiftLeft_eq]

/-- The word of a `LOAD_KEY` as a number: `OP` and the three fields at their places, each cut to its
width (30_encoding.md R72). -/
theorem encode_loadKey_toNat (klen mode keyBits : Nat) :
    (encode (.loadKey klen mode keyBits)).toNat
      = 2 ^ 28 + klen % 64 * 2 ^ 16 + mode % 128 * 2 ^ 9 + keyBits % 512 := by
  simp only [encode, toNat_append_eq_add, BitVec.toNat_ofNat]
  omega

theorem encode_keystream_toNat : (encode .keystream).toNat = 2 ^ 29 := by
  decide

/-- The bounds of 30_encoding.md R72 on the fields of a well-formed `LOAD_KEY`. -/
theorem Instr.wf_loadKey_iff (klen mode keyBits : Nat) :
    (Instr.loadKey klen mode keyBits).wf = true ↔ klen < 64 ∧ mode < 128 ∧ keyBits < 512 := by
  simp [Instr.wf, and_assoc]

/-- Settles O2: on numbers, each field of the word is the quotient and remainder that the decoder
takes. -/
theorem decodeOfEncodeIsTheInstruction : Obligations.DecodeOfEncodeIsTheInstruction := by
  intro i hwf
  cases i with
  | loadKey klen mode keyBits =>
    obtain ⟨hklen, hmode, hbits⟩ := (Instr.wf_loadKey_iff klen mode keyBits).mp hwf
    have hw := encode_loadKey_toNat klen mode keyBits
    rw [Nat.mod_eq_of_lt hklen, Nat.mod_eq_of_lt hmode, Nat.mod_eq_of_lt hbits] at hw
    rw [decode_eq_arithmetic, hw, if_pos (by omega), if_neg (by omega)]
    congr 2 <;> omega
  | keystream => rw [decode_eq_arithmetic, encode_keystream_toNat]; rfl

/-- Settles O3: the quotients and remainders the decoder takes are in range, and put together again
they are the word. -/
theorem encodeOfDecodeIsTheWord : Obligations.EncodeOfDecodeIsTheWord := by
  intro w i hd
  have hw := w.isLt
  rw [decode_eq_arithmetic] at hd
  split_ifs at hd with hload hzero hkey hlow
  · obtain rfl := Except.ok.inj hd
    refine ⟨(Instr.wf_loadKey_iff ..).mpr ⟨by omega, by omega, by omega⟩, ?_⟩
    rw [← BitVec.toNat_inj, encode_loadKey_toNat]
    omega
  · obtain rfl := Except.ok.inj hd
    refine ⟨rfl, ?_⟩
    rw [← BitVec.toNat_inj, encode_keystream_toNat]
    omega

end Sys2Proof
end

