-- ==== Sys2Proof/Proofs/Steps.lean ====
section
/-! PROOF. One step as a relation with one constructor per thing the host's act can do, and the rules
that hold of every step and so of every run: 10_state.md R28, R33, R35, R52; 60_exceptions.md R166;
70_reset_and_hazards.md R180, R193, R195. -/

namespace Sys2Proof.Machine

/-! ## What one step can do -/

/-- `s.StepsTo t`: the host's next act takes `s` to `t`, a `LOAD_KEY` and a `KEYSTREAM` told apart by
whether they succeed (30_encoding.md R70; 60_exceptions.md R153, R159; 70_reset_and_hazards.md R180). -/
inductive State.StepsTo (s : State) : State → Prop
  | idle (hin : s.inputs = []) : s.StepsTo s
  | reset {rest : List HostEvent} (hin : s.inputs = .reset :: rest) : s.StepsTo (s.takeReset rest)
  | illegal {c : Command} {rest : List HostEvent} {why : Illegal}
      (hin : s.inputs = .command c :: rest) (hd : decode c.cmd = .error why) :
      s.StepsTo ((s.accept c rest).respond (.error .illegalCommand))
  | load {c : Command} {rest : List HostEvent} {klen : Nat} {ks : KeySize} {m : Mode}
      (hin : s.inputs = .command c :: rest)
      (hd : decode c.cmd = .ok (.loadKey klen m.clocks (32 * ks.words)))
      (hklen : 4 * ks.words ≤ klen) : s.StepsTo ((s.accept c rest).loaded ks m)
  | failedLoad {c : Command} {rest : List HostEvent} {klen mode keyBits : Nat} {e : ErrorKind}
      (hin : s.inputs = .command c :: rest)
      (hd : decode c.cmd = .ok (.loadKey klen mode keyBits)) (hfails : ¬ LegalLoad klen mode keyBits)
      (hexec : ∀ u, exec (.loadKey klen mode keyBits) u = .next (u.invalidate.respond (.error e))) :
      s.StepsTo ((s.accept c rest).invalidate.respond (.error e))
  | keystream {c : Command} {rest : List HostEvent} (hin : s.inputs = .command c :: rest)
      (hd : decode c.cmd = .ok .keystream) (hkeyed : s.keyed = true) :
      s.StepsTo (s.accept c rest).drawn
  | notKeyed {c : Command} {rest : List HostEvent} (hin : s.inputs = .command c :: rest)
      (hd : decode c.cmd = .ok .keystream) (hkeyed : s.keyed = false) :
      s.StepsTo ((s.accept c rest).respond (.error .notKeyed))

/-- The fields of a load that names a key size and a mode and brings enough key bytes are legal. -/
theorem legalLoad_of_le {klen : Nat} (ks : KeySize) (m : Mode) (h : 4 * ks.words ≤ klen) :
    LegalLoad klen m.clocks (32 * ks.words) := by
  refine ⟨?_, ?_, by omega⟩
  · cases ks <;> decide
  · cases m <;> decide

/-- The relation describes the step. -/
theorem State.StepsTo.step_eq {s t : State} (h : s.StepsTo t) : step s = .next t := by
  cases h with
  | idle hin => exact step_idle hin
  | reset hin => exact step_reset hin
  | illegal hin hd => exact step_illegal hin hd
  | load hin hd hklen => exact (step_decoded hin hd).trans (exec_loadKey_eq_loaded _ _ hklen _)
  | failedLoad hin hd _ hexec => exact (step_decoded hin hd).trans (hexec _)
  | keystream hin hd hkeyed => exact step_keystream_eq_drawn hkeyed hin hd
  | notKeyed hin hd hkeyed => exact (step_decoded hin hd).trans (execKeystream_not_keyed _ hkeyed)

/-- Every state has a next one (70_reset_and_hazards.md R195). -/
theorem State.exists_stepsTo (s : State) : ∃ t, s.StepsTo t := by
  rcases step_cases s with ⟨hin, -⟩ | ⟨_, hin, -⟩ | ⟨_, _, _, hin, hd, -⟩
    | ⟨c, rest, i, hin, hd, -⟩
  · exact ⟨_, .idle hin⟩
  · exact ⟨_, .reset hin⟩
  · exact ⟨_, .illegal hin hd⟩
  · cases i with
    | loadKey klen mode keyBits =>
      by_cases legal : LegalLoad klen mode keyBits
      · obtain ⟨ks, m, rfl, rfl, hklen⟩ := legal.exists_keySize_mode
        exact ⟨_, .load hin hd hklen⟩
      · obtain ⟨e, hexec⟩ := exec_loadKey_of_not_legal legal
        exact ⟨_, .failedLoad hin hd legal hexec⟩
    | keystream =>
      cases hkeyed : s.keyed with
      | true => exact ⟨_, .keystream hin hd hkeyed⟩
      | false => exact ⟨_, .notKeyed hin hd hkeyed⟩

theorem step_eq_next_iff {s t : State} : step s = .next t ↔ s.StepsTo t := by
  refine ⟨fun hstep => ?_, State.StepsTo.step_eq⟩
  obtain ⟨u, hu⟩ := s.exists_stepsTo
  obtain rfl : t = u := Host.Outcome.next.inj (hstep.symm.trans hu.step_eq)
  exact hu

/-- What holds of no step and is passed on from the rest of a run over its first step holds of every run
that completes. -/
theorem State.after_induction {R : State → State → Prop} (refl : ∀ s, R s s)
    (head : ∀ {s u t}, s.StepsTo u → R u t → R s t) {n : Nat} {s t : State}
    (h : s.after n = some t) : R s t := by
  induction n generalizing s with
  | zero => exact Option.some.inj h ▸ refl s
  | succ n ih =>
    obtain ⟨u, hu⟩ := s.exists_stepsTo
    exact head hu (ih ((State.after_succ hu.step_eq n).symm.trans h))

/-! ## The step by the host's act -/

/-- Settles O5: accepting the command is the update the statement writes out. -/
theorem stepRunsTheDecodedCommand : Obligations.StepRunsTheDecodedCommand :=
  fun _ _ _ _ hin hd => step_decoded hin hd

/-- Settles O7: the fields of the state that `takeReset` leaves. -/
theorem resetClearsKeyedWithoutResponse : Obligations.ResetClearsKeyedWithoutResponse :=
  fun s rest hin => ⟨s.takeReset rest, step_reset hin, rfl, rfl, rfl, rfl, rfl⟩

/-- Settles O8: the idle case of the step. -/
theorem idleStepHoldsTheState : Obligations.IdleStepHoldsTheState :=
  fun _ hin => step_idle hin

/-- Settles O9, by induction on the number of steps: each state has a next one. -/
theorem everyRunCompletes : Obligations.EveryRunCompletes := by
  intro n
  induction n with
  | zero => exact fun s => ⟨s, rfl⟩
  | succ n ih =>
    intro s
    obtain ⟨u, hu⟩ := s.exists_stepsTo
    obtain ⟨t, ht⟩ := ih u
    exact ⟨t, (State.after_succ hu.step_eq n).trans ht⟩

/-! ## What every step keeps -/

/-- No act writes the tables (20_memory.md R52). -/
theorem State.StepsTo.sbox_eq {s t : State} (h : s.StepsTo t) : t.sbox = s.sbox := by
  cases h <;> rfl

/-- Settles O38: each step of the run leaves the tables as they are. -/
theorem sBoxIsNeverWritten : Obligations.SBoxIsNeverWritten :=
  fun _ _ _ => State.after_induction (R := fun s t => t.sbox = s.sbox) (fun _ => rfl)
    fun hu ht => ht.trans hu.sbox_eq

/-- A state that is not keyed meets the invariant. -/
theorem State.inv_of_not_keyed {s : State} (h : s.keyed = false) : s.Inv :=
  fun hkeyed => absurd hkeyed (by simp [h])

/-- A load establishes the invariant and a `KEYSTREAM` keeps it; every other act leaves the state
unkeyed or the cipher elements as they were (10_state.md R28). -/
theorem State.StepsTo.inv {s t : State} (h : s.StepsTo t) (hinv : s.Inv) : t.Inv := by
  cases h with
  | idle => exact hinv
  | reset => exact State.inv_of_not_keyed rfl
  | illegal => exact hinv
  | load => exact fun _ => Cipher.loadKey_inv ..
  | failedLoad => exact State.inv_of_not_keyed rfl
  | keystream _ _ hkeyed =>
    obtain ⟨halias, -⟩ := hinv hkeyed
    exact fun _ => ⟨halias.advance s.sbox, s.cipher.advance_invDerived s.sbox⟩
  | notKeyed _ _ hkeyed => exact State.inv_of_not_keyed hkeyed

/-- Settles O35: the invariant of one step, for every step the model takes. -/
theorem stepKeepsTheInvariant : Obligations.StepKeepsTheInvariant :=
  fun _ _ hinv hstep => (step_eq_next_iff.mp hstep).inv hinv

/-- Settles O34: the fields of the reset state; the invariant asks nothing while not keyed. -/
theorem resetStateIsNotKeyed : Obligations.ResetStateIsNotKeyed :=
  ⟨rfl, rfl, State.inv_of_not_keyed rfl⟩

/-! ## What changes `keyed` and the cipher elements -/

/-- The act clears `keyed`: reset, or a `LOAD_KEY` that is not legal (10_state.md R28). -/
def HostEvent.EndsSession (e : HostEvent) : Prop :=
  e = .reset ∨ ∃ c klen mode keyBits, e = .command c
    ∧ decode c.cmd = .ok (.loadKey klen mode keyBits) ∧ ¬ LegalLoad klen mode keyBits

/-- A legal load sets `keyed`, reset and a failed load clear it, and no other act writes it. -/
theorem State.StepsTo.keyed_cases {s t : State} (h : s.StepsTo t) :
    (∃ e rest, s.inputs = e :: rest ∧ e.IsLegalLoad) ∧ t.keyed = true
      ∨ (∃ e rest, s.inputs = e :: rest ∧ e.EndsSession) ∧ t.keyed = false
      ∨ t.keyed = s.keyed := by
  cases h with
  | load hin hd hklen =>
    exact .inl ⟨⟨_, _, hin, _, _, _, _, rfl, hd, legalLoad_of_le _ _ hklen⟩, rfl⟩
  | reset hin => exact .inr (.inl ⟨⟨_, _, hin, .inl rfl⟩, rfl⟩)
  | failedLoad hin hd hfails =>
    exact .inr (.inl ⟨⟨_, _, hin, .inr ⟨_, _, _, _, rfl, hd, hfails⟩⟩, rfl⟩)
  | idle => exact .inr (.inr rfl)
  | illegal => exact .inr (.inr rfl)
  | keystream => exact .inr (.inr rfl)
  | notKeyed => exact .inr (.inr rfl)

theorem State.StepsTo.legalLoad_of_keyed {s t : State} (h : s.StepsTo t) (hs : s.keyed = false)
    (ht : t.keyed = true) : ∃ e rest, s.inputs = e :: rest ∧ e.IsLegalLoad := by
  rcases h.keyed_cases with ⟨hload, -⟩ | ⟨-, hclear⟩ | hsame
  · exact hload
  · simp [ht] at hclear
  · simp [hs, ht] at hsame

theorem State.StepsTo.endsSession_of_not_keyed {s t : State} (h : s.StepsTo t)
    (hs : s.keyed = true) (ht : t.keyed = false) :
    ∃ e rest, s.inputs = e :: rest ∧ e.EndsSession := by
  rcases h.keyed_cases with ⟨-, hset⟩ | ⟨hends, -⟩ | hsame
  · simp [ht] at hset
  · exact hends
  · simp [hs, ht] at hsame

/-- Settles O36: the two lemmas say which acts can change `keyed`, and the equations of the step that
they do. -/
theorem keyedFollowsLoadsAndResets : Obligations.KeyedFollowsLoadsAndResets := by
  intro s t hstep
  have h := step_eq_next_iff.mp hstep
  have leaves {u : State} (hu : step s = .next u) : t = u :=
    Host.Outcome.next.inj (hstep.symm.trans hu)
  refine ⟨h.legalLoad_of_keyed, h.endsSession_of_not_keyed, fun e rest hin hload => ?_,
    fun rest hin => ?_, fun c rest klen mode keyBits hin hd hfails => ?_⟩
  · obtain ⟨c, klen, mode, keyBits, rfl, hd, legal⟩ := hload
    obtain ⟨ks, m, rfl, rfl, hklen⟩ := legal.exists_keySize_mode
    rw [leaves (State.StepsTo.load hin hd hklen).step_eq]
    rfl
  · rw [leaves (step_reset hin)]
    rfl
  · obtain ⟨e, hexec⟩ := exec_loadKey_of_not_legal hfails
    rw [leaves (State.StepsTo.failedLoad hin hd hfails hexec).step_eq]
    rfl

/-- Settles O37: the other acts leave the cipher elements as they were. -/
theorem onlyLoadKeystreamAndResetChangeTheCipher :
    Obligations.OnlyLoadKeystreamAndResetChangeTheCipher := by
  intro s t hstep hne
  cases step_eq_next_iff.mp hstep with
  | reset hin => exact ⟨_, _, hin, .inl rfl⟩
  | load hin hd => exact ⟨_, _, hin, .inr (.inr ⟨_, _, _, _, rfl, hd⟩)⟩
  | failedLoad hin hd => exact ⟨_, _, hin, .inr (.inr ⟨_, _, _, _, rfl, hd⟩)⟩
  | keystream hin hd hkeyed => exact ⟨_, _, hin, .inr (.inl ⟨⟨_, rfl, hd⟩, hkeyed⟩)⟩
  | idle => exact absurd rfl hne
  | illegal => exact absurd rfl hne
  | notKeyed => exact absurd rfl hne

end Sys2Proof.Machine
end

