-- ==== Sys2Proof/Proofs/Observation.lean ====
section
/-! PROOF. What responses can show: nothing of the cipher elements while not keyed (10_state.md R33),
nothing of earlier operands and responses (R29), and no success without a legal load
(70_reset_and_hazards.md section 2). -/

namespace Sys2Proof.Machine

/-- Settles O40: two such states are alike, and alike states answer alike. -/
theorem unkeyedCipherIsUnobservable : Obligations.UnkeyedCipherIsUnobservable := by
  intro n s t hs ht hsbox hinputs
  obtain ⟨s', t', hs', ht', -, new, hnew, hnew'⟩ :=
    (State.alike_of_not_keyed hs ht hsbox hinputs).after n
  exact ⟨s', t', new, hs', ht', hnew, hnew'⟩

/-- The CORE is not keyed and no pending act will key it (10_state.md R28). -/
def State.NeverKeyed (s : State) : Prop :=
  s.keyed = false ∧ ∀ e ∈ s.inputs, ¬ e.IsLegalLoad

/-- The responses of `t` are those of `s` and after them errors only. -/
def State.AddsErrors (s t : State) : Prop :=
  ∃ new, t.responses = s.responses ++ new ∧ ∀ r ∈ new, ∃ err, r = Response.error err

theorem State.AddsErrors.of_eq {s t : State} (h : t.responses = s.responses) : s.AddsErrors t :=
  ⟨[], by rw [h, List.append_nil], nofun⟩

theorem State.AddsErrors.of_error {s t : State} {err : ErrorKind}
    (h : t.responses = s.responses ++ [.error err]) : s.AddsErrors t :=
  ⟨[.error err], h, fun _ hr => ⟨err, List.mem_singleton.mp hr⟩⟩

theorem State.AddsErrors.trans {s t u : State} (h : s.AddsErrors t) (h' : t.AddsErrors u) :
    s.AddsErrors u := by
  obtain ⟨new, ht, hnew⟩ := h
  obtain ⟨new', hu, hnew'⟩ := h'
  exact ⟨new ++ new', by rw [hu, ht, List.append_assoc], fun r hr =>
    (List.mem_append.mp hr).elim (hnew r) (hnew' r)⟩

/-- The acts still pending after a step were pending before it. -/
theorem State.StepsTo.inputs_subset {s t : State} (h : s.StepsTo t) : t.inputs ⊆ s.inputs := by
  cases h with
  | idle => exact List.Subset.refl _
  | reset hin => exact hin ▸ List.subset_cons_self ..
  | illegal hin => exact hin ▸ List.subset_cons_self ..
  | load hin => exact hin ▸ List.subset_cons_self ..
  | failedLoad hin => exact hin ▸ List.subset_cons_self ..
  | keystream hin => exact hin ▸ List.subset_cons_self ..
  | notKeyed hin => exact hin ▸ List.subset_cons_self ..

/-- Without a legal load pending a step leaves the CORE so. -/
theorem State.StepsTo.neverKeyed {s t : State} (h : s.StepsTo t) (hnever : s.NeverKeyed) :
    t.NeverKeyed := by
  obtain ⟨hkeyed, hacts⟩ := hnever
  refine ⟨Bool.eq_false_iff.mpr fun ht => ?_, fun e he => hacts e (h.inputs_subset he)⟩
  obtain ⟨e, rest, hin, hload⟩ := h.legalLoad_of_keyed hkeyed ht
  exact hacts e (hin ▸ List.mem_cons_self) hload

/-- While not keyed, only a legal load is answered by anything but an error. -/
theorem State.StepsTo.addsErrors {s t : State} (h : s.StepsTo t) (hnever : s.NeverKeyed) :
    s.AddsErrors t := by
  obtain ⟨hs, hacts⟩ := hnever
  cases h with
  | idle => exact .of_eq rfl
  | reset => exact .of_eq rfl
  | illegal => exact .of_error rfl
  | failedLoad => exact .of_error rfl
  | notKeyed => exact .of_error rfl
  | load hin hd hklen =>
    exact absurd ⟨_, _, _, _, rfl, hd, legalLoad_of_le _ _ hklen⟩
      (hacts _ (hin ▸ List.mem_cons_self))
  | keystream _ _ hkeyed => exact absurd (hs.symm.trans hkeyed) Bool.false_ne_true

/-- Settles O42: each step of the run keeps `NeverKeyed` and adds errors only. -/
theorem noKeystreamWithoutALegalLoad : Obligations.NoKeystreamWithoutALegalLoad := by
  intro n s t hkeyed hacts hafter
  refine State.after_induction (R := fun s t => s.NeverKeyed → t.keyed = false ∧ s.AddsErrors t)
    (fun s hnever => ⟨hnever.1, .of_eq rfl⟩) (fun hu hrest hnever => ?_) hafter ⟨hkeyed, hacts⟩
  obtain ⟨ht, herrors⟩ := hrest (hu.neverKeyed hnever)
  exact ⟨ht, (hu.addsErrors hnever).trans herrors⟩

/-- Settles O39: each kind of act takes the two states the same way. A step reads the ports only after
its command has driven them anew, and no step reads the responses. -/
theorem earlierOperandsAndResponsesAreForgotten :
    Obligations.EarlierOperandsAndResponsesAreForgotten := by
  intro s p rs
  obtain ⟨t, h⟩ := s.exists_stepsTo
  let s' : State := { s with ports := p, responses := rs }
  cases h with
  | idle hin =>
    exact ⟨s, s', [], step_idle hin, step_idle hin, by simp, by simp [s'], rfl, rfl, rfl, rfl,
      fun _ _ => rfl⟩
  | reset hin =>
    exact ⟨_, _, [], step_reset hin, step_reset (s := s') hin, by simp, by simp [s'], rfl, rfl, rfl,
      rfl, fun hne => absurd hin (hne _)⟩
  | illegal hin hd =>
    exact ⟨_, _, [.error .illegalCommand], step_illegal hin hd, step_illegal (s := s') hin hd,
      rfl, rfl, rfl, rfl, rfl, rfl, fun _ _ => rfl⟩
  | load hin hd hklen =>
    exact ⟨_, _, [.done], (State.StepsTo.load hin hd hklen).step_eq,
      (State.StepsTo.load (s := s') hin hd hklen).step_eq,
      rfl, rfl, rfl, rfl, rfl, rfl, fun _ _ => rfl⟩
  | failedLoad hin hd hfails hexec =>
    exact ⟨_, _, [.error _], (State.StepsTo.failedLoad hin hd hfails hexec).step_eq,
      (State.StepsTo.failedLoad (s := s') hin hd hfails hexec).step_eq, rfl, rfl, rfl, rfl, rfl, rfl,
      fun _ hlegal => absurd (hlegal _ _ _ _ _ hin hd) hfails⟩
  | keystream hin hd hkeyed =>
    exact ⟨_, _, [.word s.cipher.keystreamWord], step_keystream_eq_drawn hkeyed hin hd,
      step_keystream_eq_drawn (s := s') hkeyed hin hd,
      rfl, rfl, rfl, rfl, rfl, rfl, fun _ _ => rfl⟩
  | notKeyed hin hd hkeyed =>
    exact ⟨_, _, [.error .notKeyed], (State.StepsTo.notKeyed hin hd hkeyed).step_eq,
      (State.StepsTo.notKeyed (s := s') hin hd hkeyed).step_eq,
      rfl, rfl, rfl, rfl, rfl, rfl, fun _ _ => rfl⟩

end Sys2Proof.Machine
end

