-- ==== Sys2Proof/Proofs/Instances.lean ====
section
/-! PROOF. A step of one place in the list of the machines with common tables (60_exceptions.md
R168). -/

namespace Sys2Proof.Machine

/-- Settles O43: the step replaces one place of the list, by a state with the same tables. -/
theorem instancesDoNotInterfere : Obligations.InstancesDoNotInterfere := by
  intro sys n s hn
  obtain ⟨s', hs'⟩ := s.exists_stepsTo
  obtain ⟨hlt, hget⟩ := List.getElem?_eq_some_iff.mp hn
  have hstep : sys.stepAt n = .next (sys.set n s') := by
    simp only [System.stepAt, hn, hs'.step_eq]
  refine ⟨sys.set n s', s', hstep, hs'.step_eq, List.getElem?_set_self hlt,
    fun m hm => List.getElem?_set_ne hm.symm, List.length_set, fun sbox hall => ?_⟩
  simp only [System.sharesSBox, List.all_eq_true, decide_eq_true_eq] at hall ⊢
  intro u hu
  rcases List.mem_or_eq_of_mem_set hu with hold | rfl
  · exact hall u hold
  · exact hs'.sbox_eq.trans (hall s (List.mem_of_getElem? hn))

end Sys2Proof.Machine
end

