-- ==== Sys2Proof/Proofs/Ring.lean ====
section
/-! PROOF. The LFSR buffer as the 16-word ring (10_state.md R22, R23), and the reduced state as a full
description of the cipher elements (R34). -/

namespace Sys2Proof.Machine

/-- Every word after the writes of the slot, by its own slot number (40_lfsr_gf232.md R96). -/
theorem Cipher.writeSlot_getElem_mod (c : Cipher) (v : Word) {i : Nat} (hi : i < 32) :
    (c.writeSlot v).L[i] = if i % 16 = c.ptr.toNat then v else c.L[i] := by
  simp only [Cipher.writeSlot_getElem, mem_slot_iff_mod hi]

/-- Settles O32: where the aliases agree, a word is read at its slot number, below 16. -/
theorem sixteenWordRingReadsTheSame : Obligations.SixteenWordRingReadsTheSame := by
  intro c v halias
  refine ⟨fun k => halias.getElem_eq _ _ (Nat.mod_mod _ 16).symm, fun i h => ?_, fun i => ?_⟩
  · rw [c.writeSlot_getElem_mod v (by omega), Nat.mod_eq_of_lt h]
  · rw [c.writeSlot_getElem_mod v (by omega), c.writeSlot_getElem_mod v (by omega),
      Nat.add_mod_right, halias i]

/-- Where the aliases agree, every word of the buffer is one of the sixteen stages: the one whose
distance above `ptr` is that of the word, modulo 16 (10_state.md R34). -/
theorem Cipher.InvAlias.getElem_eq_stages {c : Cipher} (h : c.InvAlias) {i : Nat} (hi : i < 32) :
    c.L[i] = c.stages[(i + 31 - c.ptr.toNat) % 16]'(Nat.mod_lt _ (by decide)) := by
  have hp := c.ptr.isLt
  rw [Cipher.stages_getElem]
  exact h.getElem_eq hi _ (by simp only; omega)

/-- Settles O33: the stages determine the buffer, and `INV_DERIVED` says that the derived registers
are what the derive step makes of the rest. -/
theorem reducedStateDeterminesTheCipher : Obligations.ReducedStateDeterminesTheCipher := by
  intro sbox c d hcalias hdalias hcderived hdderived hptr hreduce
  obtain ⟨hstages, hR1, hR2⟩ := Reduced.mk.inj hreduce
  have hL : c.L = d.L := Vector.ext fun i hi => by
    simp only [hcalias.getElem_eq_stages hi, hdalias.getElem_eq_stages hi, hstages, hptr]
  rw [← hcderived.updateInternals_eq, ← hdderived.updateInternals_eq]
  exact Cipher.updateInternals_congr sbox hL hptr hR1 hR2

end Sys2Proof.Machine
end

