-- ==== Sys2Proof/Proofs/MicroPrograms.lean ====
section
/-! PROOF. The commands as sequences of micro-operations, and how many of each they hold
(42_clocking.md R113; 70_reset_and_hazards.md R194). -/

namespace Sys2Proof.Machine

/-- `n` times the pair of the mixing loop (43_load_key.md R130). -/
def mixingOps (n : Nat) : List MicroOp :=
  (List.replicate n [MicroOp.feedbackClock, MicroOp.updateInternals]).flatten

theorem mixingOps_succ (n : Nat) :
    mixingOps (n + 1) = .feedbackClock :: .updateInternals :: mixingOps n := rfl

/-- The mixing loop runs its pairs in order. -/
theorem runMicroOps_mixingOps (sbox : SBox) (n : Nat) (c : Cipher) :
    runMicroOps sbox (mixingOps n) c = c.mix sbox n := by
  induction n generalizing c with
  | zero => rfl
  | succ n ih => exact ih (c.feedbackClock.updateInternals sbox)

theorem count_mixingOps (op : MicroOp) (n : Nat) :
    (mixingOps n).count op = n * [MicroOp.feedbackClock, .updateInternals].count op := by
  rw [mixingOps, List.count_flatten, List.map_replicate, List.sum_replicate_nat]

/-- Settles O19: a legal load is `UPDATE_INTERNALS` and the mixing loop after steps 1 to 6, and a
`KEYSTREAM` of a keyed state advances the cipher by one pair. -/
theorem commandsRunTheirMicroPrograms : Obligations.CommandsRunTheirMicroPrograms := by
  refine ⟨fun klen mode keyBits s legal => ?_, fun s hkeyed =>
    ⟨s.drawn, exec_keystream_eq_drawn hkeyed, rfl⟩⟩
  obtain ⟨ks, m, rfl, rfl, hklen⟩ := legal.exists_keySize_mode
  have hcount (op : MicroOp) := count_mixingOps op m.clocks
  refine ⟨s.loaded ks m, ks, m, .updateInternals :: mixingOps m.clocks, rfl, rfl, rfl, ?_, ?_, ?_,
    exec_loadKey_eq_loaded ks m hklen s, ?_⟩
  · simp [hcount]
  · simp [hcount]
  · simp [hcount]
  · exact (runMicroOps_mixingOps s.sbox m.clocks _).symm

end Sys2Proof.Machine
end

