-- ==== Sys2Proof/Proofs/KeystreamSlots.lean ====
section
/-! PROOF. Which words of the buffer a run of `KEYSTREAM` commands replaces (44_keystream.md R146). -/

namespace Sys2Proof.Machine

theorem Cipher.advance_ptr_toNat (sbox : SBox) (c : Cipher) :
    (c.advance sbox).ptr.toNat = (c.ptr.toNat + 15) % 16 :=
  c.lfsrStep_ptr_toNat 0

/-- Every word after a `KEYSTREAM`, by its slot (44_keystream.md R146). -/
theorem Cipher.advance_getElem (sbox : SBox) (c : Cipher) {i : Nat} (hi : i < 32) :
    (c.advance sbox).L[i]
      = if i % 16 = c.ptr.toNat then alpha (c.stage 7 ^^^ c.stage 13 ^^^ c.stage 16)
        else c.L[i] := by
  rw [← Cipher.feedback_zero]
  exact c.lfsrStep_getElem 0 hi

/-- `k` commands lower the pointer by `k` modulo 16 (40_lfsr_gf232.md R97). -/
theorem Cipher.iterate_advance_ptr_toNat (sbox : SBox) (c : Cipher) (k : Nat) :
    ((Cipher.advance sbox)^[k] c).ptr.toNat = (c.ptr.toNat + 15 * k) % 16 := by
  induction k with
  | zero => exact (Nat.mod_eq_of_lt c.ptr.isLt).symm
  | succ k ih =>
    rw [Function.iterate_succ_apply', Cipher.advance_ptr_toNat, ih]
    omega

/-- A word whose slot none of the `n` commands reaches stays as it is. -/
theorem Cipher.iterate_advance_getElem_of_not_reached (sbox : SBox) (c : Cipher) (n : Nat) {i : Nat}
    (hi : i < 32) (h : ∀ k < n, i % 16 ≠ (c.ptr.toNat + 15 * k) % 16) :
    ((Cipher.advance sbox)^[n] c).L[i] = c.L[i] := by
  induction n with
  | zero => rfl
  | succ n ih =>
    have hlast : i % 16 ≠ ((Cipher.advance sbox)^[n] c).ptr.toNat := by
      rw [Cipher.iterate_advance_ptr_toNat]
      exact h n n.lt_succ_self
    rw [Function.iterate_succ_apply', Cipher.advance_getElem _ _ hi, if_neg hlast]
    exact ih fun k hk => h k (hk.trans n.lt_succ_self)

/-- While `KEYSTREAM` commands are pending in a keyed state, `k` steps run `k` of them. -/
theorem after_keystreams {evs rest : List HostEvent} {s : State} (hkeyed : s.keyed = true)
    (hevs : ∀ e ∈ evs, e.IsKeystream) (hin : s.inputs = evs ++ rest) {k : Nat}
    (hk : k ≤ evs.length) :
    ∃ u, s.after k = some u ∧ u.cipher = (Cipher.advance s.sbox)^[k] s.cipher := by
  induction k generalizing s evs with
  | zero => exact ⟨s, rfl, rfl⟩
  | succ k ih =>
    cases evs with
    | nil => exact absurd hk (Nat.not_succ_le_zero k)
    | cons e evs =>
      obtain ⟨⟨c, rfl, hd⟩, hothers⟩ := List.forall_mem_cons.mp hevs
      have hstep := step_keystream_eq_drawn hkeyed hin hd
      obtain ⟨u, hu, hcipher⟩ :=
        ih (s := (s.accept c (evs ++ rest)).drawn) hkeyed hothers rfl (Nat.le_of_succ_le_succ hk)
      exact ⟨u, (State.after_succ hstep k).trans hu, hcipher⟩

/-- Settles O22: the cipher elements after `k` commands are those advanced `k` times. -/
theorem eachKeystreamReplacesOneSlot : Obligations.EachKeystreamReplacesOneSlot := by
  intro evs rest s hkeyed hevs hin
  refine ⟨fun k hk => ?_, ?_⟩
  · obtain ⟨u, hu, hucipher⟩ := after_keystreams hkeyed hevs hin hk.le
    obtain ⟨v, hv, hvcipher⟩ := after_keystreams hkeyed hevs hin hk
    refine ⟨u, v, hu, hv, ?_, fun i hi => ?_⟩
    · rw [hucipher, Cipher.iterate_advance_ptr_toNat]
    · simp only [hvcipher, hucipher, Function.iterate_succ_apply',
        Cipher.advance_getElem _ _ hi]
  · obtain ⟨t, ht, hcipher⟩ := after_keystreams hkeyed hevs hin le_rfl
    refine ⟨t, ht, ?_, fun i hi h => ?_⟩
    · rw [hcipher, Cipher.iterate_advance_ptr_toNat]
    · simp only [hcipher]
      exact Cipher.iterate_advance_getElem_of_not_reached s.sbox s.cipher evs.length hi h

end Sys2Proof.Machine
end

