-- ==== Sys2Proof/Proofs/Ports.lean ====
section
/-! PROOF. The response port (60_exceptions.md R150; 20_memory.md R56) and the assembler
(30_encoding.md R80, R81). -/

namespace Sys2Proof.Machine

/-! ## The response port -/

/-- Codes 6 and 7 are not assigned (60_exceptions.md R150). -/
theorem ErrorKind.code_lt_six (e : ErrorKind) : e.code < 6 := by
  cases e <;> decide

theorem Response.err_lt_six (r : Response) : r.err < 6 := by
  cases r with
  | done => decide
  | word w => exact (by decide : (0 : BitVec 3) < 6)
  | error e => exact e.code_lt_six

/-- Settles O11: the codes by definition, and all of them below 6. -/
theorem responseCodes : Obligations.ResponseCodes := by
  refine ⟨rfl, fun _ => rfl, rfl, rfl, rfl, rfl, rfl, fun r => ⟨fun h => ?_, fun h => ?_⟩⟩
  · exact absurd r.err_lt_six (by rw [h]; decide)
  · exact absurd r.err_lt_six (by rw [h]; decide)

/-- Settles O44: as numbers, each byte is the quotient and remainder of the word that its field is. -/
theorem serializedWordIsBigEndian : Obligations.SerializedWordIsBigEndian := by
  intro b0 b1 b2 b3
  have h0 := b0.isLt
  have h1 := b1.isLt
  have h2 := b2.isLt
  have h3 := b3.isLt
  simp only [serializeRK, List.cons.injEq, and_true, ← BitVec.toNat_inj, BitVec.extractLsb_toNat,
    Nat.shiftRight_eq_div_pow, toNat_append_eq_add]
  omega

/-! ## The assembler -/

/-- A lane below the key's length carries its key byte (30_encoding.md R80). -/
theorem keyPort_getElem {key : List Byte} {i : Nat} (h : i < 32) (h' : i < key.length) :
    (keyPort key)[i] = key[i] := by
  simp [keyPort, h']

/-- Settles O46: the capped length fits `KLEN`, so the command is well-formed and its word decodes to
it. -/
theorem loadKeyLineEncodesItsOperands : Obligations.LoadKeyLineEncodesItsOperands := by
  intro key keyBits mode iv2 iv1 hbits hmode
  have hwf : (Instr.loadKey (min key.length 63) mode keyBits).wf = true :=
    (Instr.wf_loadKey_iff ..).mpr ⟨by omega, hmode, hbits⟩
  exact ⟨⟨encode (.loadKey (min key.length 63) mode keyBits), keyPort key, iv2, iv1⟩, if_pos hwf,
    decodeOfEncodeIsTheInstruction _ hwf, rfl, rfl, fun _ => keyPort_getElem⟩

/-- Pending commands are answered once each, in order, whatever they are (30_encoding.md R78). -/
theorem after_commands (cs : List Command) {rest : List HostEvent} {s : State}
    (hin : s.inputs = cs.map .command ++ rest) :
    ∃ t new, s.after cs.length = some t ∧ t.responses = s.responses ++ new
      ∧ new.length = cs.length ∧ t.inputs = rest := by
  induction cs generalizing s with
  | nil => exact ⟨s, [], rfl, (List.append_nil _).symm, rfl, hin⟩
  | cons c cs ih =>
    obtain ⟨u, r, hstep, hinputs, hfirst, -⟩ := oneResponsePerCommand s c _ hin
    obtain ⟨t, new, hafter, hresp, hlength, hrest⟩ := ih hinputs
    exact ⟨t, r :: new, (State.after_succ hstep cs.length).trans hafter,
      by rw [hresp, hfirst, List.append_assoc, List.singleton_append], congrArg Nat.succ hlength,
      hrest⟩

/-- Settles O45: `n` commands, each answered once, and in a consistent keyed state by the words of the
reduced sequence. -/
theorem keystreamPseudoCommandYieldsNResponses :
    Obligations.KeystreamPseudoCommandYieldsNResponses := by
  intro n s hn
  let cs : List Command := List.replicate n ⟨encode .keystream, Ports.undriven⟩
  have hlength : cs.length = n := List.length_replicate
  have hdecode : ∀ c ∈ cs, decode c.cmd = .ok .keystream := fun c hc => by
    rw [List.eq_of_mem_replicate hc]
    exact decodeOfEncodeIsTheInstruction .keystream rfl
  refine ⟨cs, if_neg hn.ne', hlength, hdecode, fun hin => ?_⟩
  have hin' : s.inputs = cs.map .command ++ [] := hin.trans (List.append_nil _).symm
  obtain ⟨t, new, hafter, hresp, hnew, hinputs⟩ := after_commands cs hin'
  rw [hlength] at hafter hnew
  refine ⟨t, new, hafter, hresp, hnew, hinputs, fun hkeyed hinv => ?_⟩
  have hkeystreams : ∀ e ∈ cs.map HostEvent.command, e.IsKeystream :=
    List.forall_mem_map.mpr fun c hc => ⟨c, rfl, hdecode c hc⟩
  obtain ⟨t', hafter', hwords, -⟩ :=
    keystreamIsTheReducedSequence (cs.map .command) [] s hkeyed hinv hkeystreams hin'
  rw [List.length_map, hlength] at hafter' hwords
  obtain rfl : t = t' := Option.some.inj (hafter.symm.trans hafter')
  exact List.append_cancel_left (hresp.symm.trans hwords)

end Sys2Proof.Machine
end
